-- ==== Sys2Proof/Word.lean ====
section
/-! DEFINITION. The values of the machine. Every register and every mailbox holds a mathematical
integer (00_scope.md R9, R11), so the value type is Lean's `Int` and no bit vector occurs anywhere:
the spec has no bits, no shifts and no masks. A range is an invariant, not a type. -/

namespace Sys2Proof

/-- `between lo hi v`: the integer `v` lies in the inclusive interval `[lo, hi]` (00_scope.md R11). -/
def between (lo hi v : Int) : Bool := decide (lo ≤ v) && decide (v ≤ hi)

/-- One entry of the memory list: a mailbox's index and the value it holds. The addressable unit is
the mailbox, not the byte (20_memory.md R40, R47). -/
abbrev Mailbox := Nat × Int

end Sys2Proof
end

