-- ==== Sys2Proof/Config.lean ====
section
/-! DEFINITION. What is fixed for this hardware: the parameters of 00_scope.md section 3, the opcode-4
policy, and the one free value (the memory a failed Boot leaves behind). -/

namespace Sys2Proof

/-- The two policies the source allows for the reserved opcode 4 (00_scope.md R7). -/
inductive Op4Policy where
  /-- raise `UnimplementedOpcode` (41_halt_reserved.md R101) -/
  | fault
  /-- do nothing (41_halt_reserved.md R102), not this hardware -/
  | nop
deriving DecidableEq, Repr

namespace Config

/-- `MEM_SIZE` (R4): mailboxes `0 .. 99`. -/
def memSize : Nat := 100

/-- `VAL_MIN` (R5). -/
def valMin : Int := -999

/-- `VAL_MAX` (R5). -/
def valMax : Int := 999

/-- `WORD_MIN` (R6). -/
def wordMin : Int := 0

/-- `WORD_MAX` (R6). -/
def wordMax : Int := 999

/-- The first value of `PC` past the last mailbox (`PC_MAX`, R21); step 5 of the cycle tests for it
(40_cycle.md R86). -/
def pcMax : Int := 100

/-- `OP4_POLICY = fault` for this hardware (R7; decision D1 of 92_eei_decisions.md). -/
def op4Policy : Op4Policy := .fault

/-- FREE VALUE (notes/assumptions/5.md). What a mailbox holds after a Boot that raised
`MalformedProgram` is unspecified (70_reset_and_hazards.md R182; 93_implementation_defined.md U7,
"any value"). `failedBootMailbox tokens a` stands for mailbox `a`: the value is this number less 999,
so it is any value of the mailbox range and nothing else is known of it. -/
opaque failedBootMailbox : List Int → Nat → Fin 1999

end Config

end Sys2Proof
end

