-- ==== Sys2Proof/Syntax.lean ====
section
/-! DEFINITION. The instruction set: one constructor per row of spec/opcode_table.json (30_encoding.md
R63, R65, R71). The rows cover every mailbox value, so the illegal and reserved encodings and the
values that are no instruction word are constructors too: each has an effect, the fault it raises.

The operand is an integer, as the spec writes it (00_scope.md R11): the handlers test `operand < 0`
and an address outside 0..99 defensively (10_state.md R34), and an ill-formed term reaches those
tests. `Sys2Proof.Instr.wf` (WellFormed.lean) gives the operands the encoding admits. -/

namespace Sys2Proof

/-- An instruction, or a mailbox value that is not a legal one. -/
inductive Instr where
  /-- `000` (R100) -/
  | halt
  /-- `001 .. 099`: HALT with a non-zero operand (R100) -/
  | haltIllegalOperand (aa : Int)
  /-- `1aa` (R110) -/
  | add (aa : Int)
  /-- `2aa` (R111) -/
  | subtract (aa : Int)
  /-- `3aa` (R120) -/
  | store (aa : Int)
  /-- `4aa`: the reserved opcode (R101) -/
  | reserved4 (aa : Int)
  /-- `5aa` (R121) -/
  | load (aa : Int)
  /-- `6aa` (R130) -/
  | branch (aa : Int)
  /-- `7aa` (R131) -/
  | branchIfZero (aa : Int)
  /-- `8aa` (R132) -/
  | branchIfPositive (aa : Int)
  /-- `900`: I/O with selector 0 (R140) -/
  | ioIllegalSelector0
  /-- `901` (R141) -/
  | input
  /-- `902` (R142) -/
  | output
  /-- `903 .. 999`: I/O with selector 3..99 (R140) -/
  | ioIllegalSelector3To99 (aa : Int)
  /-- a value outside `0 .. 999`: no instruction word (R62) -/
  | notAWord (w : Int)
deriving DecidableEq, Repr

/-- The classes of 30_encoding.md R65 (and the `class` column of spec/opcode_table.json, which files
the illegal operands and the values that are no word both under `illegal`). -/
inductive WordClass where
  | legal
  | illegalOperand
  | reserved
  | notAWord
deriving DecidableEq, Repr

end Sys2Proof
end

