-- ==== Sys2Proof/WellFormed.lean ====
section
/-! DEFINITION. Well-formed instructions: the operands each row of spec/opcode_table.json admits
(30_encoding.md R63, R65). -/

namespace Sys2Proof

/-- A two-digit operand (00_scope.md R6). -/
def isOperand (aa : Int) : Bool := between 0 99 aa

/-- The operand lies where the instruction's row of the opcode table admits it. -/
def Instr.wf : Instr → Bool
  | .halt => true
  | .haltIllegalOperand aa => between 1 99 aa
  | .add aa => isOperand aa
  | .subtract aa => isOperand aa
  | .store aa => isOperand aa
  | .reserved4 aa => isOperand aa
  | .load aa => isOperand aa
  | .branch aa => isOperand aa
  | .branchIfZero aa => isOperand aa
  | .branchIfPositive aa => isOperand aa
  | .ioIllegalSelector0 => true
  | .input => true
  | .output => true
  | .ioIllegalSelector3To99 aa => between 3 99 aa
  | .notAWord w => between (-999) (-1) w

/-- The class of 30_encoding.md R65. -/
def Instr.wordClass : Instr → WordClass
  | .halt => .legal
  | .haltIllegalOperand _ => .illegalOperand
  | .add _ => .legal
  | .subtract _ => .legal
  | .store _ => .legal
  | .reserved4 _ => .reserved
  | .load _ => .legal
  | .branch _ => .legal
  | .branchIfZero _ => .legal
  | .branchIfPositive _ => .legal
  | .ioIllegalSelector0 => .illegalOperand
  | .input => .legal
  | .output => .legal
  | .ioIllegalSelector3To99 _ => .illegalOperand
  | .notAWord _ => .notAWord

/-- The inclusive range of mailbox values the instruction's row of the opcode table covers
(`word_min`, `word_max`; 30_encoding.md R65, R71). -/
def Instr.rowRange : Instr → Int × Int
  | .halt => (0, 0)
  | .haltIllegalOperand _ => (1, 99)
  | .add _ => (100, 199)
  | .subtract _ => (200, 299)
  | .store _ => (300, 399)
  | .reserved4 _ => (400, 499)
  | .load _ => (500, 599)
  | .branch _ => (600, 699)
  | .branchIfZero _ => (700, 799)
  | .branchIfPositive _ => (800, 899)
  | .ioIllegalSelector0 => (900, 900)
  | .input => (901, 901)
  | .output => (902, 902)
  | .ioIllegalSelector3To99 _ => (903, 999)
  | .notAWord _ => (-999, -1)

end Sys2Proof
end

