-- ==== Sys2Proof/Decode.lean ====
section
/-! DEFINITION. The decoder and, after it, the encoder (30_encoding.md R60 to R66). A word is a decimal
number: opcode digit, then two operand digits. The decoder is total on all integers. -/

namespace Sys2Proof

/-- The value check before decoding: `word` is in `[0, 999]` (30_encoding.md R62). -/
def isWord (w : Int) : Bool := between Config.wordMin Config.wordMax w

/-- `word div 100` (R61). -/
def opcodeDigit (w : Int) : Int := w / 100

/-- `word mod 100` (R61). -/
def operandDigits (w : Int) : Int := w % 100

/-- The opcode map (R63), with the legal operand values of its fifth column: one operation per opcode
digit, opcode 9 selecting by its operand. An opcode above 8 is the digit 9. -/
def decodeDigits (opcode aa : Int) : Instr :=
  if opcode = 0 then (if aa = 0 then .halt else .haltIllegalOperand aa)
  else if opcode = 1 then .add aa
  else if opcode = 2 then .subtract aa
  else if opcode = 3 then .store aa
  else if opcode = 4 then .reserved4 aa
  else if opcode = 5 then .load aa
  else if opcode = 6 then .branch aa
  else if opcode = 7 then .branchIfZero aa
  else if opcode = 8 then .branchIfPositive aa
  else if aa = 0 then .ioIllegalSelector0
  else if aa = 1 then .input
  else if aa = 2 then .output
  else .ioIllegalSelector3To99 aa

/-- The decoder (R61, R62, R65): any integer, split by decimal digits once the value check passes. -/
def decode (w : Int) : Instr :=
  if isWord w then decodeDigits (opcodeDigit w) (operandDigits w) else .notAWord w

/-- `word = 100*o + aa` (R60). -/
def wordOf (opcode aa : Int) : Int := 100 * opcode + aa

/-- The encoder, from the table of R63. -/
def encode : Instr → Int
  | .halt => wordOf 0 0
  | .haltIllegalOperand aa => wordOf 0 aa
  | .add aa => wordOf 1 aa
  | .subtract aa => wordOf 2 aa
  | .store aa => wordOf 3 aa
  | .reserved4 aa => wordOf 4 aa
  | .load aa => wordOf 5 aa
  | .branch aa => wordOf 6 aa
  | .branchIfZero aa => wordOf 7 aa
  | .branchIfPositive aa => wordOf 8 aa
  | .ioIllegalSelector0 => wordOf 9 0
  | .input => wordOf 9 1
  | .output => wordOf 9 2
  | .ioIllegalSelector3To99 aa => wordOf 9 aa
  | .notAWord w => w

/-- The integer that the host's `nbits`-bit pattern `w` stands for: the number `w`; in a pattern of
the 11 bits or more that a mailbox needs, two's complement (DESIGN CHOICE, notes/assumptions/7.md:
the machine has no bits; this reads a bit pattern only where the host hands one over). -/
def wordValue (nbits w : Nat) : Int :=
  if 11 ≤ nbits ∧ 2 ^ (nbits - 1) ≤ w then (w : Int) - 2 ^ nbits else (w : Int)

/-- The instruction the decoder reads from the host's bit pattern; none for a number that no mailbox
holds (20_memory.md R41). -/
def decodeTableWord (nbits w : Nat) : Option Instr :=
  if between Config.valMin Config.valMax (wordValue nbits w) then some (decode (wordValue nbits w))
  else none

end Sys2Proof
end

