-- ==== Sys2Proof/Machine/State.lean ====
section
/-! DEFINITION. The state of the machine (10_state.md section 1), the environment's two sequences
beside it, the reasons a step could stop, and the state after reset. -/

namespace Sys2Proof.Machine

/-- `STATE` (10_state.md R26): the three states of the controller. -/
inductive Status where
  | running
  | halted
  | faulted
deriving DecidableEq, Repr

/-- The eight fault kinds (60_exceptions.md R150). `FKIND = NONE` is `none` of `Option FaultKind`. -/
inductive FaultKind where
  | addressFault
  | valueFault
  | overflow
  | illegalOperand
  | syntaxFault
  | malformedProgram
  | programOverrun
  | unimplementedOpcode
deriving DecidableEq, Repr

/-- The source's six fault classes, the `class` column of 60_exceptions.md R150. -/
inductive FaultClass where
  | addressFault
  | valueFaultOrOverflow
  | illegalOperand
  | syntaxFaultOrMalformedProgram
  | programOverrun
  | unimplementedOpcode
deriving DecidableEq, Repr

/-- An event of the I/O trace (10_state.md R30). -/
inductive IoEvent where
  /-- `in(v)`: INPUT accepted `v` -/
  | accepted (v : Int)
  /-- `rej(v)`: INPUT rejected the out-of-range `v` and asked again -/
  | rejected (v : Int)
  /-- `out(v)`: OUTPUT handed `v` to the port -/
  | output (v : Int)
deriving DecidableEq, Repr

/-- The mailboxes whose value is not 0, addresses strictly rising (`Memory.wf`, Ops.lean). A mailbox
that is not listed holds 0, its value at reset (10_state.md R32). -/
abbrev Memory := List Mailbox

/-- The whole state. The first eight fields are the state of the core (10_state.md section 1),
`inputWait` is its hidden state (R31), and `input` and `trace` are the environment's sequences, which
the spec lets a model carry as lists (R30). -/
structure State where
  /-- `PC`, 0..100 (R21) -/
  pc : Int
  /-- `ACC`, -999..999 (R22) -/
  acc : Int
  /-- `IR`, the opcode digit of the fetched word, 0..9 (R23) -/
  ir : Int
  /-- `AR`, the operand of the fetched word, 0..99 (R24) -/
  ar : Int
  /-- `MEM[0..99]`, each -999..999 (R29) -/
  mem : Memory
  /-- `STATE` (R26) -/
  status : Status
  /-- `FKIND`, `none` for `NONE` (R27) -/
  fkind : Option FaultKind
  /-- `FADDR`, 0..99 (R28) -/
  faddr : Int
  /-- the input wait: an INPUT has asked the port and no in-range value has come yet (R31) -/
  inputWait : Bool
  /-- `IN`: the integers the port has yet to supply, the next one first (R30) -/
  input : List Int
  /-- `TRACE`: the events emitted so far, the oldest first (R30) -/
  trace : List IoEvent
deriving DecidableEq, Repr

/-- The reasons for which the model itself would stop. There is none: every fault of this hardware is
an architected state that the run reaches (`FAULTED`, 70_reset_and_hazards.md R189), entered by
`State.raise` as a next state. No step raises a `Fault`, so there is nothing safe or unsafe to say. -/
inductive Fault where
deriving DecidableEq, Repr

/-- The reasons for which an instruction would have no meaning. -/
inductive Refusal where
  /-- The arm of an instruction that is not modelled yet, named by its mnemonic. No arm of
  Dispatch.lean uses it: every row of the opcode table has its meaning. Safe: the machine stops. -/
  | notModelled (mnemonic : String)
deriving DecidableEq, Repr

/-- The state right after reset (10_state.md R32, 70_reset_and_hazards.md R180). `IN` is a parameter
of a run, not a value of the state: no integer has been supplied yet (notes/assumptions/3.md). -/
def State.reset : State where
  pc := 0
  acc := 0
  ir := 0
  ar := 0
  mem := []
  status := .running
  fkind := none
  faddr := 0
  inputWait := false
  input := []
  trace := []

end Sys2Proof.Machine
end

