-- ==== Sys2Proof/Machine/Ops.lean ====
section
/-! DEFINITION. The named operations every instruction is built from: the memory and its two bounds-checked
primitives (20_memory.md R42, R43), fault entry (60_exceptions.md R162), and the cycle around a
handler (40_cycle.md R83 to R86). -/

namespace Sys2Proof.Machine

/-! ### The memory list -/

/-- What mailbox `a` holds; a mailbox that is not listed holds 0 (10_state.md R32). -/
def Memory.get : Memory → Nat → Int
  | [], _ => 0
  | (k, v) :: m, a => if k = a then v else Memory.get m a

/-- Puts `(a, v)` in front, or nothing where `v` is the value an unlisted mailbox holds. -/
def Memory.cons (a : Nat) (v : Int) (m : Memory) : Memory := if v = 0 then m else (a, v) :: m

/-- Writes mailbox `a`, keeping the list sorted and free of zeros. -/
def Memory.set : Memory → Nat → Int → Memory
  | [], a, v => Memory.cons a v []
  | (k, w) :: m, a, v =>
    if a < k then Memory.cons a v ((k, w) :: m)
    else if a = k then Memory.cons a v m
    else (k, w) :: Memory.set m a v

/-- From `lo` on, addresses strictly rise and stay below `MEM_SIZE`, and no listed value is 0. -/
def Memory.wfFrom : Nat → Memory → Bool
  | _, [] => true
  | lo, (k, v) :: m =>
    decide (lo ≤ k) && decide (k < Config.memSize) && decide (v ≠ 0) && Memory.wfFrom (k + 1) m

/-- The canonical form of a memory: equal memories are equal lists. -/
def Memory.wf (m : Memory) : Bool := Memory.wfFrom 0 m

/-- What mailbox `a` holds, `MEM[a]` of 00_scope.md R12: a state component, not an access. -/
def State.mailbox (s : State) (a : Nat) : Int := Memory.get s.mem a

/-! ### Checks and the two memory primitives -/

/-- A valid address: `0 .. 99` (00_scope.md R4, 20_memory.md R50). -/
def isAddress (a : Int) : Bool := decide (0 ≤ a) && decide (a < (Config.memSize : Int))

/-- A value a mailbox and the accumulator can hold (00_scope.md R5). -/
def inRange (v : Int) : Bool := between Config.valMin Config.valMax v

/-- `MemRead(a, 1)` (R42): the fault kind where the address does not exist, never a wrap-around (R44). -/
def memRead (a : Int) (s : State) : Except FaultKind Int :=
  if isAddress a then .ok (s.mailbox a.toNat) else .error .addressFault

/-- `MemWrite(a, 1, v)` (R43): the address check first, then the value check, then the write. -/
def memWrite (a v : Int) (s : State) : Except FaultKind State :=
  if isAddress a then
    if inRange v then .ok { s with mem := Memory.set s.mem a.toNat v } else .error .valueFault
  else .error .addressFault

/-! ### Fault entry, and there is no return from a fault (R163) -/

/-- `raise K(a)` (60_exceptions.md R162): `STATE`, `FKIND` and `FADDR` are written, nothing else is
saved anywhere, and `FAULTED` is terminal. -/
def State.raise (k : FaultKind) (a : Int) (s : State) : State :=
  { s with status := .faulted, fkind := some k, faddr := a }

/-- The numeric codes of R150; `NONE` is 0. No rule depends on them. -/
def faultCode : Option FaultKind → Nat
  | none => 0
  | some .addressFault => 1
  | some .valueFault => 2
  | some .overflow => 3
  | some .illegalOperand => 4
  | some .syntaxFault => 5
  | some .malformedProgram => 6
  | some .programOverrun => 7
  | some .unimplementedOpcode => 8

/-- The source's class of a fault kind (R150). -/
def faultClass : FaultKind → FaultClass
  | .addressFault => .addressFault
  | .valueFault => .valueFaultOrOverflow
  | .overflow => .valueFaultOrOverflow
  | .illegalOperand => .illegalOperand
  | .syntaxFault => .syntaxFaultOrMalformedProgram
  | .malformedProgram => .syntaxFaultOrMalformedProgram
  | .programOverrun => .programOverrun
  | .unimplementedOpcode => .unimplementedOpcode

/-! ### The cycle around a handler -/

/-- A handler of step 4: it reads its operand from `AR`, and answers the state after its effect or the
kind of the fault it raises. Every handler makes all its checks before its first write (40_cycle.md
R87), so one that raises has written nothing. -/
abbrev Handler := State → Except FaultKind State

/-- Step 2's stores: `IR` and `AR` (40_cycle.md R83). -/
def State.latch (opcode operand : Int) (s : State) : State := { s with ir := opcode, ar := operand }

/-- Step 3: `PC <- iaddr + 1`, before dispatch (R84). -/
def State.advance (iaddr : Int) (s : State) : State := { s with pc := iaddr + 1 }

/-- Step 5 (R86), which runs only after the handler has returned: not while INPUT waits (10_state.md
R31). -/
def overrunCheck (iaddr : Int) (s : State) : State :=
  if s.status = .running ∧ s.inputWait = false ∧ Config.pcMax ≤ s.pc then
    s.raise .programOverrun iaddr
  else s

/-- Steps 2 to 5 of the cycle of a word whose digits are `opcode` and `operand` (R83 to R87). The state
it is given is the one at the start of the cycle, so `iaddr` is its `PC`. -/
def cycle (opcode operand : Int) (handler : Handler) (s : State) : State :=
  match handler ((s.latch opcode operand).advance s.pc) with
  | .ok t => overrunCheck s.pc t
  | .error k => ((s.latch opcode operand).advance s.pc).raise k s.pc

end Sys2Proof.Machine
end

