-- ==== Sys2Proof/Machine/Flags.lean ====
section
/-! DEFINITION. The machine has no flags and no condition codes (10_state.md R25). What stands in their
place: the two conditions the branches test on `ACC` itself, and the range check of a result. -/

namespace Sys2Proof.Machine

/-- `ACC = 0` (44_branch.md R131). -/
def accIsZero (s : State) : Bool := decide (s.acc = 0)

/-- `ACC >= 0`: zero counts (R132). -/
def accIsNonNegative (s : State) : Bool := decide (0 ≤ s.acc)

/-- The range check of an exact result: `Overflow` outside `[-999, 999]`, never a wrap, a truncation or
a saturation (42_arith.md R112). -/
def writeAcc (r : Int) (s : State) : Except FaultKind State :=
  if inRange r then .ok { s with acc := r } else .error .overflow

end Sys2Proof.Machine
end

