-- ==== Sys2Proof/Machine/Operands.lean ====
section
/-! DEFINITION. The roles of the one operand form, the two-digit number in `AR` (30_encoding.md R64,
10_state.md R24, 43_load_store.md R123): mailbox address, jump target, I/O selector, must-be-zero
field. -/

namespace Sys2Proof.Machine

/-- The effective address of ADD, SUBTRACT, STORE and LOAD is `AR` itself (R123). -/
def effectiveAddress (s : State) : Int := s.ar

/-- The mailbox the operand addresses, as ADD, SUBTRACT and LOAD read it. -/
def memOperand (s : State) : Except FaultKind Int := memRead (effectiveAddress s) s

/-- The defensive check `operand < 0` of STORE, LOAD and BRANCH (R120, R121; 44_branch.md R130). -/
def requireNonNegative (handler : Handler) : Handler := fun s =>
  if s.ar < 0 then .error .illegalOperand else handler s

/-- A jump to the operand, an absolute address (44_branch.md R133). -/
def jumpToOperand (s : State) : State := { s with pc := s.ar }

/-- HALT's operand field "must be 0" (41_halt_reserved.md R100). -/
def operandIsZero (s : State) : Bool := decide (s.ar = 0)

/-- The I/O selector 1, INPUT (45_io.md R140). -/
def selectsInput (s : State) : Bool := decide (s.ar = 1)

/-- The I/O selector 2, OUTPUT (R140). -/
def selectsOutput (s : State) : Bool := decide (s.ar = 2)

end Sys2Proof.Machine
end

