-- ==== Sys2Proof/Machine/Arith.lean ====
section
/-! DEFINITION. ADD and SUBTRACT, the whole ALU (42_arith.md). -/

namespace Sys2Proof.Machine

/-- Reads the operand's mailbox, computes exactly on `ACC` and it, and range-checks the result into
`ACC` (R112, R113). -/
def aluHandler (f : Int → Int → Int) : Handler := fun s =>
  match memOperand s with
  | .ok m => writeAcc (f s.acc m) s
  | .error k => .error k

/-- `ADD(operand)` (R110). -/
def addHandler : Handler := aluHandler (fun acc m => acc + m)

/-- `SUBTRACT(operand)` (R111): `ACC` is the minuend. -/
def subtractHandler : Handler := aluHandler (fun acc m => acc - m)

/-- ADD, words `100 .. 199` (R110). -/
def execAdd (aa : Int) (s : State) : Host.Outcome State Fault Refusal :=
  .next (cycle 1 aa addHandler s)

/-- SUBTRACT, words `200 .. 299` (R111). -/
def execSubtract (aa : Int) (s : State) : Host.Outcome State Fault Refusal :=
  .next (cycle 2 aa subtractHandler s)

end Sys2Proof.Machine
end

