-- ==== Sys2Proof/Machine/Branch.lean ====
section
/-! DEFINITION. BRANCH, BRANCH-IF-ZERO, BRANCH-IF-POSITIVE (44_branch.md). -/

namespace Sys2Proof.Machine

/-- `BRANCH(operand)` (R130). -/
def branchHandler : Handler := requireNonNegative fun s => .ok (jumpToOperand s)

/-- `BRANCH-IF-ZERO(operand)` (R131): no check on the operand. -/
def branchIfZeroHandler : Handler := fun s =>
  .ok (if accIsZero s then jumpToOperand s else s)

/-- `BRANCH-IF-POSITIVE(operand)` (R132): no check on the operand. -/
def branchIfPositiveHandler : Handler := fun s =>
  .ok (if accIsNonNegative s then jumpToOperand s else s)

/-- BRANCH, words `600 .. 699` (R130). -/
def execBranch (aa : Int) (s : State) : Host.Outcome State Fault Refusal :=
  .next (cycle 6 aa branchHandler s)

/-- BRANCH-IF-ZERO, words `700 .. 799` (R131). -/
def execBranchIfZero (aa : Int) (s : State) : Host.Outcome State Fault Refusal :=
  .next (cycle 7 aa branchIfZeroHandler s)

/-- BRANCH-IF-POSITIVE, words `800 .. 899` (R132). -/
def execBranchIfPositive (aa : Int) (s : State) : Host.Outcome State Fault Refusal :=
  .next (cycle 8 aa branchIfPositiveHandler s)

end Sys2Proof.Machine
end

