-- ==== Sys2Proof/Machine/HaltReserved.lean ====
section
/-! DEFINITION. HALT, the reserved opcode 4, and the values that are no instruction word
(41_halt_reserved.md; 30_encoding.md R62). -/

namespace Sys2Proof.Machine

/-- `HALT(operand)` (R100). -/
def haltHandler : Handler := fun s =>
  if operandIsZero s then .ok { s with status := .halted } else .error .illegalOperand

/-- `RESERVED4(operand)` under either policy (R101, R102); the operand is not examined. -/
def reserved4Handler (policy : Op4Policy) : Handler := fun s =>
  match policy with
  | .fault => .error .unimplementedOpcode
  | .nop => .ok s

/-- HALT, word `000` (R100). -/
def execHalt (s : State) : Host.Outcome State Fault Refusal := .next (cycle 0 0 haltHandler s)

/-- HALT with a non-zero operand, words `001 .. 099`: `IllegalOperand` (R100). -/
def execHaltIllegalOperand (aa : Int) (s : State) : Host.Outcome State Fault Refusal :=
  .next (cycle 0 aa haltHandler s)

/-- The reserved opcode 4, words `400 .. 499`, under this hardware's policy (R101). -/
def execReserved4 (aa : Int) (s : State) : Host.Outcome State Fault Refusal :=
  .next (cycle 4 aa (reserved4Handler Config.op4Policy) s)

/-- A value that is no instruction word: `SyntaxFault(iaddr)` at step 2, with `IR`, `AR` and `PC` not
written (R62; 40_cycle.md R83). -/
def execNotAWord (s : State) : Host.Outcome State Fault Refusal :=
  .next (s.raise .syntaxFault s.pc)

end Sys2Proof.Machine
end

