-- ==== Sys2Proof/Machine/Io.lean ====
section
/-! DEFINITION. INPUT, OUTPUT and the illegal selectors of opcode 9 (45_io.md), with the input wait
(10_state.md R31). -/

namespace Sys2Proof.Machine

/-- Appends one event to `TRACE` (00_scope.md R12). -/
def State.emit (e : IoEvent) (s : State) : State := { s with trace := s.trace ++ [e] }

/-- The loop of `INPUT()` (R141) over the integers the port has to give: each `InPort.get()` takes the
next one (R143), an out-of-range one is rejected and discarded, the first in-range one is written to
`ACC` and ends the instruction. Where the port has none left, the core is in the input wait (R145). -/
def inputLoop : List Int → State → State
  | [], s => { s with input := [], inputWait := true }
  | v :: vs, s =>
    if inRange v then ({ s with acc := v, input := vs, inputWait := false } : State).emit (.accepted v)
    else inputLoop vs (s.emit (.rejected v))

/-- `INPUT()` (R141). It never faults. -/
def inputHandler (s : State) : State := inputLoop s.input s

/-- `OUTPUT()` (R142): the port always takes the value at once (R144). -/
def outputHandler (s : State) : State := s.emit (.output s.acc)

/-- `IO(operand)` (R140): the selector is checked before any transfer. -/
def ioHandler : Handler := fun s =>
  if selectsInput s then .ok (inputHandler s)
  else if selectsOutput s then .ok (outputHandler s)
  else .error .illegalOperand

/-- What a waiting INPUT does once more: it asks the port for what has come since, and when it completes,
step 5 of its cycle runs. `PC` is `iaddr + 1` during the wait (10_state.md R31). -/
def resumeInput (s : State) : State := overrunCheck (s.pc - 1) (inputHandler s)

/-- INPUT, word `901` (R141). -/
def execInput (s : State) : Host.Outcome State Fault Refusal := .next (cycle 9 1 ioHandler s)

/-- OUTPUT, word `902` (R142). -/
def execOutput (s : State) : Host.Outcome State Fault Refusal := .next (cycle 9 2 ioHandler s)

/-- I/O with selector 0, word `900`: `IllegalOperand` (R140). -/
def execIoIllegalSelector0 (s : State) : Host.Outcome State Fault Refusal :=
  .next (cycle 9 0 ioHandler s)

/-- I/O with selector 3..99, words `903 .. 999`: `IllegalOperand` (R140). -/
def execIoIllegalSelector3To99 (aa : Int) (s : State) : Host.Outcome State Fault Refusal :=
  .next (cycle 9 aa ioHandler s)

end Sys2Proof.Machine
end

