-- ==== Sys2Proof/Machine/LoadStore.lean ====
section
/-! DEFINITION. STORE and LOAD (43_load_store.md). -/

namespace Sys2Proof.Machine

/-- `STORE(operand)` (R120): the accumulator is what is stored (00_scope.md R8). -/
def storeHandler : Handler :=
  requireNonNegative fun s => memWrite (effectiveAddress s) s.acc s

/-- `LOAD(operand)` (R121): the loaded value passes the range check of every write of `ACC`. -/
def loadHandler : Handler :=
  requireNonNegative fun s =>
    match memOperand s with
    | .ok m => writeAcc m s
    | .error k => .error k

/-- STORE, words `300 .. 399` (R120). -/
def execStore (aa : Int) (s : State) : Host.Outcome State Fault Refusal :=
  .next (cycle 3 aa storeHandler s)

/-- LOAD, words `500 .. 599` (R121). -/
def execLoad (aa : Int) (s : State) : Host.Outcome State Fault Refusal :=
  .next (cycle 5 aa loadHandler s)

end Sys2Proof.Machine
end

