-- ==== Sys2Proof/Machine/Dispatch.lean ====
section
/-! DEFINITION. The dispatch (40_cycle.md R85): one arm per constructor, one direct call each. `exec i s`
is steps 2 to 5 of the cycle that fetched the word of `i`, from the state at the start of the cycle. -/

namespace Sys2Proof.Machine

def exec (i : Instr) (s : State) : Host.Outcome State Fault Refusal :=
  match i with
  | .halt => Sys2Proof.Machine.execHalt s
  | .haltIllegalOperand aa => Sys2Proof.Machine.execHaltIllegalOperand aa s
  | .add aa => Sys2Proof.Machine.execAdd aa s
  | .subtract aa => Sys2Proof.Machine.execSubtract aa s
  | .store aa => Sys2Proof.Machine.execStore aa s
  | .reserved4 aa => Sys2Proof.Machine.execReserved4 aa s
  | .load aa => Sys2Proof.Machine.execLoad aa s
  | .branch aa => Sys2Proof.Machine.execBranch aa s
  | .branchIfZero aa => Sys2Proof.Machine.execBranchIfZero aa s
  | .branchIfPositive aa => Sys2Proof.Machine.execBranchIfPositive aa s
  | .ioIllegalSelector0 => Sys2Proof.Machine.execIoIllegalSelector0 s
  | .input => Sys2Proof.Machine.execInput s
  | .output => Sys2Proof.Machine.execOutput s
  | .ioIllegalSelector3To99 aa => Sys2Proof.Machine.execIoIllegalSelector3To99 aa s
  | .notAWord _ => Sys2Proof.Machine.execNotAWord s

end Sys2Proof.Machine
end

