-- ==== Sys2Proof/Machine/Fetch.lean ====
section
/-! DEFINITION. The fetch of step 1 and the cycle of the controller (40_cycle.md R80 to R82). -/

namespace Sys2Proof.Machine

/-- One cycle from its start (R82 to R87): fetch at `PC`, decode, and the instruction. A fetch fault is
reported at `PC` before the increment and changes nothing else. -/
def runCycle (s : State) : Host.Outcome State Fault Refusal :=
  match memRead s.pc s with
  | .ok w => exec (decode w) s
  | .error k => .next (s.raise k s.pc)

/-- What the controller does in each of its states (R80, R81): a cycle in RUNNING, except that an INPUT
that waits goes on waiting or completes (10_state.md R31); nothing in HALTED and FAULTED. -/
def controller (s : State) : Host.Outcome State Fault Refusal :=
  match s.status with
  | .running => if s.inputWait then .next (resumeInput s) else runCycle s
  | .halted => .next s
  | .faulted => .next s

/-- The state in which the next step fetches the instruction whose word is the integer `v`: the word in
the mailbox at `PC`, in a core that runs and does not wait. `PC` is kept where it is an address. -/
def placeAtFetch (v : Int) (s : State) : State :=
  let pc := if isAddress s.pc then s.pc else 0
  { s with
    pc := pc
    mem := Memory.set s.mem pc.toNat v
    status := .running
    fkind := none
    inputWait := false }

end Sys2Proof.Machine
end

