-- ==== Sys2Proof/Machine/Step.lean ====
section
/-! DEFINITION. One step of the machine: one cycle of the controller (00_scope.md R10), or one more turn
of an INPUT that waits. -/

namespace Sys2Proof.Machine

/-- The step (40_cycle.md R81). -/
def step (s : State) : Host.Outcome State Fault Refusal := controller s

/-- `s` with the instruction of the host's bit pattern where `step` fetches next (notes/assumptions/6.md
and 7.md); `s` itself for a number no mailbox holds, which `decodeTableWord` refuses. -/
def State.withFetchWord (s : State) (nbits w : Nat) : State :=
  if inRange (wordValue nbits w) then placeAtFetch (wordValue nbits w) s else s

end Sys2Proof.Machine
end

