-- ==== Sys2Proof/Machine/Environment.lean ====
section
/-! DEFINITION. What the outside world does to the core: reset, Boot, an answer of the input port, and
what it observes (70_reset_and_hazards.md R180 to R185, R189). None of these is a step of the core; which of
them the host may use, and when, is Run.lean. -/

namespace Sys2Proof.Machine

/-- The external reset (R180), which may come in any state and discards all of it. -/
def externalReset (_ : State) : State := State.reset

/-- The loop of Boot from mailbox `k` on (R181): the memory loaded, or the index of the first token
outside `[0, 999]` among the first 100; tokens past mailbox 99 are dropped without being examined. -/
def bootLoop : Nat → List Int → Memory → Except Nat Memory
  | _, [], m => .ok m
  | k, t :: ts, m =>
    if k < Config.memSize then
      if isWord t then bootLoop (k + 1) ts (Memory.set m k t) else .error k
    else .ok m

/-- The memory after a failed Boot: every mailbox holds a free value of the mailbox range (R182). -/
@[irreducible] def failedBootMemory (tokens : List Int) : Memory :=
  (List.range Config.memSize).foldl
    (fun m a => Memory.set m a (((Config.failedBootMailbox tokens a).val : Int) + Config.valMin)) []

/-- `Boot(tokens)` (R181, R182). Its precondition is the reset state (R181): in any other state the core
accepts no Boot and nothing changes (R185). That there is one Boot per run, before the first cycle, is
`Run.host` (Run.lean). -/
def boot (tokens : List Int) (s : State) : State :=
  if s = State.reset then
    match bootLoop 0 tokens s.mem with
    | .ok m => { s with mem := m }
    | .error k => ({ s with mem := failedBootMemory tokens } : State).raise .malformedProgram (k : Int)
  else s

/-- The input port has `vs` to give after what it has already (45_io.md R143). -/
def supplyInput (vs : List Int) (s : State) : State := { s with input := s.input ++ vs }

/-- What the host can read of the core: `STATE`, `FKIND`, `FADDR` (R185, R189). -/
def hostStatus (s : State) : Status × Option FaultKind × Int := (s.status, s.fkind, s.faddr)

/-- The integers OUTPUT has handed to the port, in order: the `out` events of `TRACE` (45_io.md R144). -/
def outputs : List IoEvent → List Int
  | [] => []
  | .output v :: es => v :: outputs es
  | .accepted _ :: es => outputs es
  | .rejected _ :: es => outputs es

/-- The start of a run (R189): reset, Boot, and the integers the port will supply. -/
def launch (tokens ins : List Int) : State := supplyInput ins (boot tokens State.reset)

end Sys2Proof.Machine
end

