-- ==== Sys2Proof/Machine/Run.lean ====
section
/-! DEFINITION. A run as the outside world conducts it: which moves the host has, and when
(70_reset_and_hazards.md R180, R181, R185, R189). Whether Boot is done is no component of the core
(10_state.md section 1), so it stands here, beside the core's state (notes/assumptions/6.md). -/

namespace Sys2Proof.Machine

/-- Where a run stands. -/
inductive Phase where
  /-- reset has been applied and Boot has not ended: no cycle runs (R180) -/
  | fresh
  /-- Boot has ended, successfully or in `MalformedProgram` -/
  | booted
deriving DecidableEq, Repr

/-- A run: its phase and the state of the core, with the environment's sequences. -/
structure Run where
  phase : Phase
  state : State
deriving DecidableEq, Repr

/-- Reset has just been applied. -/
def Run.start : Run := { phase := .fresh, state := State.reset }

/-- Everything the host can do to the core: the transactions of R189. It has no other: no write of memory
or of a register, no pause, no step, no resume (R185). -/
inductive HostMove where
  /-- the external reset -/
  | reset
  /-- `Boot(tokens)` -/
  | boot (tokens : List Int)
  /-- the port answers requests of INPUT, present or to come, with these integers in order -/
  | supply (vs : List Int)
  /-- the port takes what OUTPUT hands it: at once and always (45_io.md R144), so nothing is left to do -/
  | acceptOutput
  /-- the host reads `hostStatus` -/
  | readStatus
deriving DecidableEq, Repr

/-- The run after a move of the host, or none where it has no such move: Boot only before the first cycle
and once, so there is no reload (R181, R185), and no answer of the port before Boot, since no INPUT can
have asked (R184). -/
def Run.host (m : HostMove) (r : Run) : Option Run :=
  match m, r.phase with
  | .reset, _ => some { phase := .fresh, state := externalReset r.state }
  | .boot tokens, .fresh => some { phase := .booted, state := boot tokens r.state }
  | .boot _, .booted => none
  | .supply vs, .booted => some { r with state := supplyInput vs r.state }
  | .supply _, .fresh => none
  | .acceptOutput, _ => some r
  | .readStatus, _ => some r

/-- The core's own move: the next step, of its own accord, once Boot has ended (R180). -/
def Run.cycle (r : Run) : Option Run :=
  match r.phase with
  | .fresh => none
  | .booted =>
    match step r.state with
    | .next t => some { r with state := t }
    | .fault _ => none
    | .refused _ => none

/-- What happens in a run: the host moves, or the core does. -/
inductive RunMove where
  | host (m : HostMove)
  | cycle
deriving DecidableEq, Repr

/-- The run after one move. -/
def Run.move (m : RunMove) (r : Run) : Option Run :=
  match m with
  | .host h => r.host h
  | .cycle => r.cycle

/-- The run after several moves, none if one of them cannot be made. -/
def Run.play : List RunMove → Run → Option Run
  | [], r => some r
  | m :: ms, r =>
    match r.move m with
    | some t => Run.play ms t
    | none => none

/-- How many of the moves are a Boot. -/
def bootCount : List RunMove → Nat
  | [] => 0
  | .host (.boot _) :: ms => bootCount ms + 1
  | .host .reset :: ms => bootCount ms
  | .host (.supply _) :: ms => bootCount ms
  | .host .acceptOutput :: ms => bootCount ms
  | .host .readStatus :: ms => bootCount ms
  | .cycle :: ms => bootCount ms

end Sys2Proof.Machine
end

