-- ==== Sys2Proof/Safety.lean ====
section
/-! DEFINITION. The terms claims use: where a cycle starts, the invariant of the machine (10_state.md
R33, R27, R31), and how a run ends (70_reset_and_hazards.md R189). -/

namespace Sys2Proof.Machine

/-- The start of a cycle: RUNNING, no instruction in progress, and `PC` an address (R33). -/
def State.AtCycleStart (s : State) : Prop :=
  s.status = .running ∧ s.inputWait = false ∧ 0 ≤ s.pc ∧ s.pc ≤ 99

/-- The word in the mailbox at `PC`. -/
def State.fetchedWord (s : State) : Int := s.mailbox s.pc.toNat

/-- An event that the port's contract allows: accepted and output values in range, rejected ones out of
range (45_io.md R141, R142). -/
def IoEvent.Legal : IoEvent → Prop
  | .accepted v => -999 ≤ v ∧ v ≤ 999
  | .rejected v => v < -999 ∨ 999 < v
  | .output v => -999 ≤ v ∧ v ≤ 999

/-- The invariant: the ranges of R33, which hold in every state but for `PC`, which may be 100 inside a
cycle and in the terminal states (R21); the tie of `FKIND` to `STATE` (R27); what the registers hold in
the input wait (R31); and the canonical form of the memory list. -/
structure State.Inv (s : State) : Prop where
  memWf : Memory.wf s.mem = true
  memRange : ∀ a : Nat, -999 ≤ s.mailbox a ∧ s.mailbox a ≤ 999
  accRange : -999 ≤ s.acc ∧ s.acc ≤ 999
  irRange : 0 ≤ s.ir ∧ s.ir ≤ 9
  arRange : 0 ≤ s.ar ∧ s.ar ≤ 99
  pcRange : 0 ≤ s.pc ∧ s.pc ≤ 100
  pcAtStart : s.status = .running → s.inputWait = false → s.pc ≤ 99
  faddrRange : 0 ≤ s.faddr ∧ s.faddr ≤ 99
  fkindTied : s.fkind = none ↔ s.status ≠ .faulted
  waiting : s.inputWait = true → s.status = .running ∧ s.ir = 9 ∧ s.ar = 1 ∧ 1 ≤ s.pc
  haltedIr : s.status = .halted → s.ir = 0 ∧ s.ar = 0
  traceLegal : ∀ e ∈ s.trace, e.Legal

/-- The core performs no further cycle (10_state.md R26). -/
def State.Terminal (s : State) : Prop := s.status = .halted ∨ s.status = .faulted

/-- The run waits for the port: not final, and no cycle starts (45_io.md R145). -/
def State.Stalled (s : State) : Prop :=
  s.status = .running ∧ s.inputWait = true ∧ s.input = []

/-- The successful end of a run (41_halt_reserved.md R100). -/
def State.Succeeded (s : State) : Prop := s.status = .halted

/-- The instruction, at this state, neither halts, jumps, faults nor waits: it completes and leaves `PC`
at the next mailbox (40_cycle.md R86, R91). -/
def CompletesInSequence (i : Instr) (s : State) : Prop :=
  match i with
  | .add aa => -999 ≤ s.acc + s.mailbox aa.toNat ∧ s.acc + s.mailbox aa.toNat ≤ 999
  | .subtract aa => -999 ≤ s.acc - s.mailbox aa.toNat ∧ s.acc - s.mailbox aa.toNat ≤ 999
  | .store _ => True
  | .load _ => True
  | .branchIfZero _ => s.acc ≠ 0
  | .branchIfPositive _ => s.acc < 0
  | .input => ∃ v ∈ s.input, -999 ≤ v ∧ v ≤ 999
  | .output => True
  | .halt => False
  | .haltIllegalOperand _ => False
  | .reserved4 _ => False
  | .branch _ => False
  | .ioIllegalSelector0 => False
  | .ioIllegalSelector3To99 _ => False
  | .notAWord _ => False

/-- The instructions of a list one after another, each as one cycle (the fetch left out). -/
def execAll : List Instr → State → Host.Outcome State Fault Refusal
  | [], s => .next s
  | i :: is, s =>
    match exec i s with
    | .next t => execAll is t
    | .fault r => .fault r
    | .refused r => .refused r

end Sys2Proof.Machine
end

