-- ==== Sys2Proof/Certificates/Slice0/Obligations.lean ====
section
/-! DEFINITION. The statements about the machine, for the provers. Each docstring names the rules of spec/
it formalises. Where a statement gives the whole next state as `{ s with … }`, every field that is not
written out is unchanged: that is its frame. -/

namespace Sys2Proof.Machine

/-- `s` after steps 2 and 3 of the cycle (40_cycle.md R83, R84), written out. -/
def decodedAt (opcode operand : Int) (s : State) : State :=
  { s with ir := opcode, ar := operand, pc := s.pc + 1 }

/-- `s` in FAULTED with kind `k` and address `a` (60_exceptions.md R162), written out. -/
def faultedWith (k : FaultKind) (a : Int) (s : State) : State :=
  { s with status := .faulted, fkind := some k, faddr := a }

/-- A token the core accepts (70_reset_and_hazards.md R182). -/
def ValidToken (t : Int) : Prop := 0 ≤ t ∧ t ≤ 999

/-- A value of the range of `ACC` and of a mailbox (00_scope.md R5). -/
def InRange (v : Int) : Prop := -999 ≤ v ∧ v ≤ 999

end Sys2Proof.Machine

open Sys2Proof Sys2Proof.Machine

/-! ### Reset and Boot -/

/-- 10_state.md R32: the table of reset values, and what Boot leaves at them. -/
def Obligations.ResetValuesAreThoseOfTheTable : Prop :=
  State.reset.pc = 0 ∧ State.reset.acc = 0 ∧ State.reset.ir = 0 ∧ State.reset.ar = 0 ∧
  (∀ a : Nat, State.reset.mailbox a = 0) ∧
  State.reset.status = .running ∧ State.reset.fkind = none ∧ State.reset.faddr = 0 ∧
  State.reset.trace = [] ∧
  ∀ tokens : List Int, (∀ (k : Nat) (t : Int), k < 100 → tokens[k]? = some t → ValidToken t) →
    (∀ (k : Nat) (t : Int), k < 100 → tokens[k]? = some t → (boot tokens State.reset).mailbox k = t) ∧
    boot tokens State.reset = { State.reset with mem := (boot tokens State.reset).mem }

/-- 70_reset_and_hazards.md R180: the external reset, in any state, leaves no component of it. -/
def Obligations.ExternalResetDiscardsEveryComponent : Prop :=
  ∀ s : State,
    (externalReset s).pc = 0 ∧ (externalReset s).acc = 0 ∧ (externalReset s).ir = 0 ∧
    (externalReset s).ar = 0 ∧ (∀ a : Nat, (externalReset s).mailbox a = 0) ∧
    (externalReset s).status = .running ∧ (externalReset s).fkind = none ∧
    (externalReset s).faddr = 0 ∧ (externalReset s).trace = []

/-- 70_reset_and_hazards.md R181, R182. Every valid prefix of at most 100 tokens is loaded in address
order, the rest of memory stays 0 and nothing else changes. The first token outside 0..999 among the
first 100 is the fault `MalformedProgram` at its index, the registers keep their reset values, and no
cycle ever runs: every further step answers the same state, which is the model's form of it
(notes/assumptions/2.md, DESIGN CHOICE). Nothing is said of the memory after that fault. -/
def Obligations.BootLoadsTokensOrRejectsTheFirstBadOne : Prop :=
  ∀ tokens : List Int,
    ((∀ (k : Nat) (t : Int), k < 100 → tokens[k]? = some t → ValidToken t) →
      (∀ k : Nat, k < 100 → (boot tokens State.reset).mailbox k = (tokens[k]?).getD 0) ∧
      boot tokens State.reset = { State.reset with mem := (boot tokens State.reset).mem }) ∧
    (∀ (k : Nat) (t : Int), k < 100 → tokens[k]? = some t → ¬ ValidToken t →
      (∀ (j : Nat) (u : Int), j < k → tokens[j]? = some u → ValidToken u) →
      boot tokens State.reset =
        { State.reset with
          mem := (boot tokens State.reset).mem
          status := .faulted
          fkind := some .malformedProgram
          faddr := (k : Int) } ∧
      ∀ n, core.run n (boot tokens State.reset) = .next (boot tokens State.reset))

/-- 10_state.md R33, which the spec marks as derived: the invariant holds right after reset. -/
def Obligations.ResetMeetsTheInvariant : Prop := State.reset.Inv

/-- 10_state.md R33 (and its last sentence, for a Boot that faults): the invariant holds where a run
starts, whatever the tokens and whatever the port will supply. It does not rest on what a failed Boot
leaves in memory, beyond its range. -/
def Obligations.LaunchMeetsTheInvariant : Prop :=
  ∀ tokens ins : List Int, (launch tokens ins).Inv

/-- 10_state.md R33, R27, R31, R23: every step answers a next state, and keeps the invariant. -/
def Obligations.StepKeepsTheInvariant : Prop :=
  ∀ s : State, s.Inv → ∃ t, step s = .next t ∧ t.Inv

/-! ### Encoding -/

/-- 30_encoding.md R61: the decoder's digit split is the inverse of `100*opcode + operand`. -/
def Obligations.DecoderSplitsDecimalDigits : Prop :=
  (∀ w : Int, 0 ≤ w → w ≤ 999 →
    0 ≤ opcodeDigit w ∧ opcodeDigit w ≤ 9 ∧ 0 ≤ operandDigits w ∧ operandDigits w ≤ 99 ∧
    100 * opcodeDigit w + operandDigits w = w) ∧
  (∀ opcode aa : Int, 0 ≤ opcode → opcode ≤ 9 → 0 ≤ aa → aa ≤ 99 →
    0 ≤ wordOf opcode aa ∧ wordOf opcode aa ≤ 999 ∧
    opcodeDigit (wordOf opcode aa) = opcode ∧ operandDigits (wordOf opcode aa) = aa)

/-- 30_encoding.md R61, R63: decoding an encoded well-formed instruction gives it back. -/
def Obligations.DecodeEncodeRoundTrip : Prop := ∀ i : Instr, i.wf = true → decode (encode i) = i

/-- 30_encoding.md R61, R65: every integer is the encoding of what it decodes to, and a mailbox value
decodes to a well-formed instruction whose row of the table covers it. -/
def Obligations.EncodeDecodeRoundTrip : Prop :=
  (∀ w : Int, encode (decode w) = w) ∧
  ∀ w : Int, InRange w →
    (decode w).wf = true ∧ (decode w).rowRange.1 ≤ w ∧ w ≤ (decode w).rowRange.2

/-- 30_encoding.md R65, which the spec marks as derived from R62, R63, R100, R101 and R140: the
classification of every mailbox value, with its counts, and what the cycle does with the values that are
no legal instruction. -/
def Obligations.EveryMailboxValueIsClassified : Prop :=
  (∀ w : Int, InRange w →
    (w < 0 → decode w = .notAWord w) ∧ (w = 0 → decode w = .halt) ∧
    (1 ≤ w → w ≤ 99 → decode w = .haltIllegalOperand w) ∧
    (100 ≤ w → w ≤ 199 → decode w = .add (w - 100)) ∧
    (200 ≤ w → w ≤ 299 → decode w = .subtract (w - 200)) ∧
    (300 ≤ w → w ≤ 399 → decode w = .store (w - 300)) ∧
    (400 ≤ w → w ≤ 499 → decode w = .reserved4 (w - 400)) ∧
    (500 ≤ w → w ≤ 599 → decode w = .load (w - 500)) ∧
    (600 ≤ w → w ≤ 699 → decode w = .branch (w - 600)) ∧
    (700 ≤ w → w ≤ 799 → decode w = .branchIfZero (w - 700)) ∧
    (800 ≤ w → w ≤ 899 → decode w = .branchIfPositive (w - 800)) ∧
    (w = 900 → decode w = .ioIllegalSelector0) ∧ (w = 901 → decode w = .input) ∧
    (w = 902 → decode w = .output) ∧
    (903 ≤ w → decode w = .ioIllegalSelector3To99 (w - 900))) ∧
  (∀ s : State, s.AtCycleStart → InRange s.fetchedWord →
    (s.fetchedWord = 0 → ∃ t, step s = .next t ∧ t.status = .halted) ∧
    ((decode s.fetchedWord).wordClass = .notAWord →
      step s = .next (faultedWith .syntaxFault s.pc s)) ∧
    ((decode s.fetchedWord).wordClass = .illegalOperand → ∃ t, step s = .next t ∧
      t.status = .faulted ∧ t.fkind = some .illegalOperand ∧ t.faddr = s.pc) ∧
    ((decode s.fetchedWord).wordClass = .reserved → ∃ t, step s = .next t ∧
      t.status = .faulted ∧ t.fkind = some .unimplementedOpcode ∧ t.faddr = s.pc)) ∧
  ((List.range 1000).countP fun w : Nat => (decode w).wordClass = .legal) = 703 ∧
  ((List.range 1000).countP fun w : Nat => (decode w).wordClass = .illegalOperand) = 197 ∧
  ((List.range 1000).countP fun w : Nat => (decode w).wordClass = .reserved) = 100 ∧
  ((List.range 999).countP fun w : Nat => (decode (-1 - (w : Int))).wordClass = .notAWord) = 999

/-- 30_encoding.md R63: words written out from the opcode map decode to what they stand for. -/
def Obligations.SampleWordsDecode : Prop :=
  decode 0 = .halt ∧ decode 7 = .haltIllegalOperand 7 ∧ decode 120 = .add 20 ∧
  decode 210 = .subtract 10 ∧ decode 399 = .store 99 ∧ decode 450 = .reserved4 50 ∧
  decode 509 = .load 9 ∧ decode 642 = .branch 42 ∧ decode 710 = .branchIfZero 10 ∧
  decode 801 = .branchIfPositive 1 ∧ decode 900 = .ioIllegalSelector0 ∧ decode 901 = .input ∧
  decode 902 = .output ∧ decode 999 = .ioIllegalSelector3To99 99 ∧ decode (-5) = .notAWord (-5)

/-! ### The controller and its cycle -/

/-- 40_cycle.md R82, R83, R85: at the start of a cycle, the step is `exec` of the instruction that the
mailbox at `PC` decodes to; the advance of `PC` is inside `exec`. -/
def Obligations.StepRunsTheFetchedInstruction : Prop :=
  ∀ s : State, s.AtCycleStart → step s = exec (decode (s.mailbox s.pc.toNat)) s

/-- 40_cycle.md R81: a cycle is performed exactly in RUNNING. A terminal state performs nothing, which in
the model's own form is a step that answers the same state (notes/assumptions/2.md, DESIGN CHOICE), and
a RUNNING core that does not wait for input always performs the next cycle. -/
def Obligations.CyclesRunExactlyInRunning : Prop :=
  (∀ s : State, s.status = .halted ∨ s.status = .faulted → step s = .next s) ∧
  (∀ s : State, s.status = .running → s.inputWait = false →
    (0 ≤ s.pc → s.pc ≤ 99 → step s = exec (decode s.fetchedWord) s) ∧
    (s.pc < 0 ∨ 99 < s.pc → step s = .next (faultedWith .addressFault s.pc s)))

/-- 40_cycle.md R82: the fetch reads the mailbox at `PC` through `memRead` and changes no state. A fetch
outside memory is `AddressFault` at `PC` before the increment and changes nothing else, and no state
that meets the invariant has one. -/
def Obligations.FetchFaultReportsThePcAndIsUnreachable : Prop :=
  (∀ (s : State) (w : Int), s.status = .running → s.inputWait = false → memRead s.pc s = .ok w →
    step s = exec (decode w) s) ∧
  (∀ s : State, s.status = .running → s.inputWait = false → s.pc < 0 ∨ 99 < s.pc →
    step s = .next (faultedWith .addressFault s.pc s)) ∧
  (∀ s : State, s.Inv → s.status = .running → s.inputWait = false → 0 ≤ s.pc ∧ s.pc ≤ 99)

/-- 30_encoding.md R62: a fetched value outside 0..999 raises `SyntaxFault` and decodes nothing. -/
def Obligations.NonWordRaisesSyntaxFault : Prop :=
  (∀ s : State, s.AtCycleStart → s.fetchedWord < 0 ∨ 999 < s.fetchedWord →
    step s = .next (faultedWith .syntaxFault s.pc s)) ∧
  (∀ w (s : State), exec (.notAWord w) s = .next (faultedWith .syntaxFault s.pc s))

/-- 40_cycle.md R83: `IR` and `AR` are written in every cycle that passes the value check, whatever the
opcode; a cycle that does not pass writes neither of them nor `PC`. -/
def Obligations.EveryCycleLatchesTheDecodedDigits : Prop :=
  ∀ s : State, s.AtCycleStart →
    (0 ≤ s.fetchedWord → s.fetchedWord ≤ 999 →
      ∃ t, step s = .next t ∧ t.ir = s.fetchedWord / 100 ∧ t.ar = s.fetchedWord % 100) ∧
    (s.fetchedWord < 0 ∨ 999 < s.fetchedWord →
      ∃ t, step s = .next t ∧ t.ir = s.ir ∧ t.ar = s.ar ∧ t.pc = s.pc ∧
        t.fkind = some .syntaxFault ∧ t.faddr = s.pc)

/-- 40_cycle.md R91, which the spec marks as derived from R84, R86 and the handler rules: what each
instruction does to `PC` in a cycle that raises no fault. -/
def Obligations.ProgramCounterSummary : Prop :=
  ∀ (i : Instr) (s t : State), s.AtCycleStart → i.wf = true → exec i s = .next t →
    t.status ≠ .faulted →
    t.pc = (match i with
      | .branch aa => aa
      | .branchIfZero aa => if s.acc = 0 then aa else s.pc + 1
      | .branchIfPositive aa => if 0 ≤ s.acc then aa else s.pc + 1
      | _ => s.pc + 1) ∧
    (i = .halt ↔ t.status = .halted) ∧
    (t.status = .running → t.inputWait = false → t.pc ≤ 99)

/-- 40_cycle.md R86: the overrun is raised exactly when the instruction at 99 completes without a halt
or a jump; it reports 99, keeps `PC = 100`, and keeps every effect the instruction has at another
address. -/
def Obligations.OverrunExactlyAfterTheLastMailbox : Prop :=
  ∀ (i : Instr) (s : State), s.Inv → s.AtCycleStart → i.wf = true →
    ∃ t, exec i s = .next t ∧
      (t.fkind = some .programOverrun ↔ s.pc = 99 ∧ CompletesInSequence i s) ∧
      (t.fkind = some .programOverrun → t.status = .faulted ∧ t.faddr = 99 ∧ t.pc = 100 ∧
        ∃ u, exec i { s with pc := 0 } = .next u ∧ u.status = .running ∧
          t.acc = u.acc ∧ t.mem = u.mem ∧ t.input = u.input ∧ t.trace = u.trace)

/-- 40_cycle.md R80: the transitions of the three-state machine, with their causes. -/
def Obligations.StateMachineTransitions : Prop :=
  State.reset.status = .running ∧ State.reset.pc = 0 ∧
  (∀ s : State, externalReset s = State.reset) ∧
  (∀ tokens : List Int, (boot tokens State.reset).status = .running ∨
    (boot tokens State.reset).status = .faulted ∧
      (boot tokens State.reset).fkind = some .malformedProgram) ∧
  (∀ s t : State, s.Inv → step s = .next t →
    (s.status ≠ .running → t = s) ∧
    (s.status = .running →
      (t.status = .halted ↔ s.inputWait = false ∧ s.fetchedWord = 0) ∧
      (t.status = .faulted ↔ t.fkind ≠ none)))

/-- 60_exceptions.md R163, in the model's own form, in which a step that performs nothing answers the
same state (notes/assumptions/2.md, DESIGN CHOICE): nothing leaves a terminal state and nothing is
written in one, however many steps are asked for; the only way out is the external reset, which discards
the whole state. -/
def Obligations.TerminalStatesAreFinal : Prop :=
  ∀ (n : Nat) (s : State), s.Terminal →
    core.run n s = .next s ∧ externalReset s = State.reset

/-- 60_exceptions.md R162, the table of fault entry: what each stage leaves behind. The last clause
rests on the model's own choices: the wait of INPUT is a sub-state (notes/assumptions/4.md, DESIGN
CHOICE), and an INPUT that completes late has `iaddr` = `PC - 1` (notes/assumptions/9.md, DEDUCED). -/
def Obligations.FaultEntryLeavesTheTabledState : Prop :=
  (∀ tokens : List Int, (boot tokens State.reset).status = .faulted →
    (boot tokens State.reset).fkind = some .malformedProgram ∧ (boot tokens State.reset).pc = 0 ∧
    (boot tokens State.reset).ir = 0 ∧ (boot tokens State.reset).ar = 0 ∧
    (boot tokens State.reset).acc = 0 ∧
    ∃ (k : Nat) (u : Int), (boot tokens State.reset).faddr = (k : Int) ∧ k < 100 ∧
      tokens[k]? = some u ∧ ¬ ValidToken u ∧
      ∀ (j : Nat) (v : Int), j < k → tokens[j]? = some v → ValidToken v) ∧
  (∀ s : State, s.status = .running → s.inputWait = false → s.pc < 0 ∨ 99 < s.pc →
    step s = .next (faultedWith .addressFault s.pc s)) ∧
  (∀ s t : State, s.Inv → s.AtCycleStart → step s = .next t → t.status = .faulted →
    ∃ k, t.fkind = some k ∧ t.faddr = s.pc ∧
      (k = .syntaxFault → t = faultedWith k s.pc s) ∧
      (k = .programOverrun → s.pc = 99 ∧ t.pc = 100 ∧
        t.ir = s.fetchedWord / 100 ∧ t.ar = s.fetchedWord % 100 ∧
        ∃ u, exec (decode s.fetchedWord) { s with pc := 0 } = .next u ∧ u.status = .running ∧
          t.acc = u.acc ∧ t.mem = u.mem ∧ t.input = u.input ∧ t.trace = u.trace) ∧
      (k ≠ .syntaxFault → k ≠ .programOverrun →
        t = faultedWith k s.pc (decodedAt (s.fetchedWord / 100) (s.fetchedWord % 100) s))) ∧
  (∀ s t : State, s.Inv → s.inputWait = true → step s = .next t → t.status = .faulted →
    t.fkind = some .programOverrun ∧ t.faddr = 99 ∧ t.pc = 100 ∧ t.ir = 9 ∧ t.ar = 1)

/-- 60_exceptions.md R172 and 10_state.md R34, which the spec marks as derived: from a state that meets
the invariant, the fetched word says which fault can be raised, and the defensive checks of memory and
of LOAD never fail. -/
def Obligations.DefensiveFaultsAreUnreachable : Prop :=
  ∀ s t : State, s.Inv → s.status = .running → step s = .next t →
    t.fkind ≠ some .addressFault ∧ t.fkind ≠ some .valueFault ∧ t.fkind ≠ some .malformedProgram ∧
    (t.fkind = some .overflow → 100 ≤ s.fetchedWord ∧ s.fetchedWord ≤ 299) ∧
    (s.inputWait = false →
      (t.fkind = some .illegalOperand ↔
        (1 ≤ s.fetchedWord ∧ s.fetchedWord ≤ 99) ∨ s.fetchedWord = 900 ∨ 903 ≤ s.fetchedWord) ∧
      (t.fkind = some .syntaxFault ↔ s.fetchedWord < 0) ∧
      (t.fkind = some .unimplementedOpcode ↔ 400 ≤ s.fetchedWord ∧ s.fetchedWord ≤ 499))

/-- 60_exceptions.md R172, which the spec marks as derived: each fault kind that the rule calls
reachable is entered on some run from reset and Boot. -/
def Obligations.ReachableFaultKindsAreReached : Prop :=
  ∀ k : FaultKind, k ≠ .addressFault → k ≠ .valueFault →
    ∃ (tokens ins : List Int) (n : Nat) (t : State),
      core.run n (launch tokens ins) = .next t ∧ t.status = .faulted ∧ t.fkind = some k

/-- 60_exceptions.md R150: the codes tell the kinds apart, and the class column. -/
def Obligations.FaultCodesNameTheKinds : Prop :=
  (∀ j k : Option FaultKind, faultCode j = faultCode k → j = k) ∧
  (∀ k : Option FaultKind, faultCode k ≤ 8) ∧ faultCode none = 0 ∧
  (∀ j k : FaultKind, faultClass j = faultClass k ↔ j = k ∨
    (j = .valueFault ∧ k = .overflow) ∨ (j = .overflow ∧ k = .valueFault) ∨
    (j = .syntaxFault ∧ k = .malformedProgram) ∨ (j = .malformedProgram ∧ k = .syntaxFault))

/-! ### The memory primitives -/

/-- 20_memory.md R42: a bounds-checked read. -/
def Obligations.MemReadIsBoundsChecked : Prop :=
  ∀ (a : Int) (s : State),
    (0 ≤ a → a ≤ 99 → memRead a s = .ok (s.mailbox a.toNat)) ∧
    (a < 0 ∨ 99 < a → memRead a s = .error .addressFault)

/-- 20_memory.md R43: a bounds- and value-checked write of exactly one mailbox, the address check first.
-/
def Obligations.MemWriteChecksThenWritesOneMailbox : Prop :=
  ∀ (a v : Int) (s : State),
    (a < 0 ∨ 99 < a → memWrite a v s = .error .addressFault) ∧
    (0 ≤ a → a ≤ 99 → ¬ InRange v → memWrite a v s = .error .valueFault) ∧
    (0 ≤ a → a ≤ 99 → InRange v → Memory.wf s.mem = true →
      ∃ t, memWrite a v s = .ok t ∧ t = { s with mem := t.mem } ∧ Memory.wf t.mem = true ∧
        t.mailbox a.toNat = v ∧ ∀ b : Nat, b ≠ a.toNat → t.mailbox b = s.mailbox b)

/-- The model's memory list is canonical: two memories that read alike are the same data (10_state.md
R29; the list is the model's own form of `MEM`, notes/assumptions/1.md). -/
def Obligations.EqualMemoriesAreEqualData : Prop :=
  ∀ m n : Memory, Memory.wf m = true → Memory.wf n = true →
    (∀ a : Nat, a ≤ 99 → Memory.get m a = Memory.get n a) → m = n

/-! ### HALT and the reserved opcode -/

/-- 41_halt_reserved.md R100. -/
def Obligations.HaltFollowsItsRule : Prop :=
  decode 0 = .halt ∧ (∀ aa, 1 ≤ aa → aa ≤ 99 → decode aa = .haltIllegalOperand aa) ∧
  ∀ s : State, s.AtCycleStart →
    exec .halt s = .next { decodedAt 0 0 s with status := .halted } ∧
    ∀ aa, aa ≠ 0 →
      exec (.haltIllegalOperand aa) s =
        .next (faultedWith .illegalOperand s.pc (decodedAt 0 aa s))

/-- 41_halt_reserved.md R101. -/
def Obligations.Reserved4FollowsItsRule : Prop :=
  (∀ aa, 0 ≤ aa → aa ≤ 99 → decode (400 + aa) = .reserved4 aa) ∧
  ∀ aa (s : State), s.AtCycleStart →
    exec (.reserved4 aa) s = .next (faultedWith .unimplementedOpcode s.pc (decodedAt 4 aa s))

/-- 41_halt_reserved.md R102: the policy this hardware does not take. -/
def Obligations.Reserved4UnderTheNopPolicy : Prop :=
  ∀ aa (s : State), s.AtCycleStart →
    (s.pc ≤ 98 → cycle 4 aa (reserved4Handler .nop) s = decodedAt 4 aa s) ∧
    (s.pc = 99 → cycle 4 aa (reserved4Handler .nop) s =
      faultedWith .programOverrun 99 (decodedAt 4 aa s))

/-! ### ADD and SUBTRACT -/

/-- 42_arith.md R110. -/
def Obligations.AddFollowsItsRule : Prop :=
  (∀ aa, 0 ≤ aa → aa ≤ 99 → decode (100 + aa) = .add aa) ∧
  ∀ aa (s : State), s.AtCycleStart →
    (0 ≤ aa → aa ≤ 99 → InRange (s.acc + s.mailbox aa.toNat) → s.pc ≤ 98 →
      exec (.add aa) s = .next { decodedAt 1 aa s with acc := s.acc + s.mailbox aa.toNat }) ∧
    (0 ≤ aa → aa ≤ 99 → InRange (s.acc + s.mailbox aa.toNat) → s.pc = 99 →
      exec (.add aa) s =
        .next (faultedWith .programOverrun 99
          { decodedAt 1 aa s with acc := s.acc + s.mailbox aa.toNat })) ∧
    (0 ≤ aa → aa ≤ 99 → ¬ InRange (s.acc + s.mailbox aa.toNat) →
      exec (.add aa) s = .next (faultedWith .overflow s.pc (decodedAt 1 aa s))) ∧
    (aa < 0 ∨ 99 < aa →
      exec (.add aa) s = .next (faultedWith .addressFault s.pc (decodedAt 1 aa s)))

/-- 42_arith.md R111. -/
def Obligations.SubtractFollowsItsRule : Prop :=
  (∀ aa, 0 ≤ aa → aa ≤ 99 → decode (200 + aa) = .subtract aa) ∧
  ∀ aa (s : State), s.AtCycleStart →
    (0 ≤ aa → aa ≤ 99 → InRange (s.acc - s.mailbox aa.toNat) → s.pc ≤ 98 →
      exec (.subtract aa) s = .next { decodedAt 2 aa s with acc := s.acc - s.mailbox aa.toNat }) ∧
    (0 ≤ aa → aa ≤ 99 → InRange (s.acc - s.mailbox aa.toNat) → s.pc = 99 →
      exec (.subtract aa) s =
        .next (faultedWith .programOverrun 99
          { decodedAt 2 aa s with acc := s.acc - s.mailbox aa.toNat })) ∧
    (0 ≤ aa → aa ≤ 99 → ¬ InRange (s.acc - s.mailbox aa.toNat) →
      exec (.subtract aa) s = .next (faultedWith .overflow s.pc (decodedAt 2 aa s))) ∧
    (aa < 0 ∨ 99 < aa →
      exec (.subtract aa) s = .next (faultedWith .addressFault s.pc (decodedAt 2 aa s)))

/-- 42_arith.md R112: each operation succeeds exactly when the exact result is in range and then writes
it; and SUBTRACT undoes ADD, and ADD SUBTRACT, wherever the first of the two succeeds. -/
def Obligations.ArithmeticIsExactAndUndoes : Prop :=
  ∀ aa (s : State), s.AtCycleStart → InRange s.acc → 0 ≤ aa → aa ≤ 99 → s.pc ≤ 97 →
    (∃ t, exec (.add aa) s = .next t ∧
      (t.status = .running ↔ InRange (s.acc + s.mailbox aa.toNat)) ∧
      (t.status = .running → t.acc = s.acc + s.mailbox aa.toNat ∧
        ∃ u, exec (.subtract aa) t = .next u ∧ u.status = .running ∧ u.acc = s.acc)) ∧
    (∃ t, exec (.subtract aa) s = .next t ∧
      (t.status = .running ↔ InRange (s.acc - s.mailbox aa.toNat)) ∧
      (t.status = .running → t.acc = s.acc - s.mailbox aa.toNat ∧
        ∃ u, exec (.add aa) t = .next u ∧ u.status = .running ∧ u.acc = s.acc))

/-- 42_arith.md R113: an arithmetic instruction that faults itself (the overrun of step 5 comes after
one that has completed) leaves `ACC` and memory unmodified, with `IR` and `AR` its own and `PC`
advanced. -/
def Obligations.FaultingArithmeticLeavesAccUnmodified : Prop :=
  ∀ (i : Instr) aa (s t : State), (i = .add aa ∨ i = .subtract aa) → s.AtCycleStart →
    exec i s = .next t → t.status = .faulted → t.fkind ≠ some .programOverrun →
    t.acc = s.acc ∧ t.mem = s.mem ∧ t.ir = (if i = .add aa then 1 else 2) ∧ t.ar = aa ∧
    t.pc = s.pc + 1 ∧ t.trace = s.trace ∧ t.input = s.input

/-! ### STORE and LOAD -/

/-- 43_load_store.md R120. -/
def Obligations.StoreFollowsItsRule : Prop :=
  (∀ aa, 0 ≤ aa → aa ≤ 99 → decode (300 + aa) = .store aa) ∧
  ∀ aa (s : State), s.AtCycleStart →
    (0 ≤ aa → aa ≤ 99 → InRange s.acc → Memory.wf s.mem = true →
      ∃ t, exec (.store aa) s = .next t ∧ t.mailbox aa.toNat = s.acc ∧
        (∀ b : Nat, b ≠ aa.toNat → t.mailbox b = s.mailbox b) ∧
        (s.pc ≤ 98 → t = { decodedAt 3 aa s with mem := t.mem }) ∧
        (s.pc = 99 → t = faultedWith .programOverrun 99 { decodedAt 3 aa s with mem := t.mem })) ∧
    (aa < 0 → exec (.store aa) s = .next (faultedWith .illegalOperand s.pc (decodedAt 3 aa s))) ∧
    (99 < aa → exec (.store aa) s = .next (faultedWith .addressFault s.pc (decodedAt 3 aa s))) ∧
    (0 ≤ aa → aa ≤ 99 → ¬ InRange s.acc →
      exec (.store aa) s = .next (faultedWith .valueFault s.pc (decodedAt 3 aa s)))

/-- 43_load_store.md R121. -/
def Obligations.LoadFollowsItsRule : Prop :=
  (∀ aa, 0 ≤ aa → aa ≤ 99 → decode (500 + aa) = .load aa) ∧
  ∀ aa (s : State), s.AtCycleStart →
    (0 ≤ aa → aa ≤ 99 → InRange (s.mailbox aa.toNat) → s.pc ≤ 98 →
      exec (.load aa) s = .next { decodedAt 5 aa s with acc := s.mailbox aa.toNat }) ∧
    (0 ≤ aa → aa ≤ 99 → InRange (s.mailbox aa.toNat) → s.pc = 99 →
      exec (.load aa) s =
        .next (faultedWith .programOverrun 99
          { decodedAt 5 aa s with acc := s.mailbox aa.toNat })) ∧
    (0 ≤ aa → aa ≤ 99 → ¬ InRange (s.mailbox aa.toNat) →
      exec (.load aa) s = .next (faultedWith .overflow s.pc (decodedAt 5 aa s))) ∧
    (aa < 0 → exec (.load aa) s = .next (faultedWith .illegalOperand s.pc (decodedAt 5 aa s))) ∧
    (99 < aa → exec (.load aa) s = .next (faultedWith .addressFault s.pc (decodedAt 5 aa s)))

/-- 43_load_store.md R122, which the spec marks as derived from R120, R121 and R52: the round trip in
both directions. Between the STORE to `aa` and the LOAD from it any instructions may run, so long as
none of them is a STORE to `aa`. -/
def Obligations.StoreThenLoadRoundTrip : Prop :=
  (∀ aa (is : List Instr) (s t u v : State), Memory.wf s.mem = true → 0 ≤ aa → aa ≤ 99 →
    InRange s.acc → exec (.store aa) s = .next t → (∀ i ∈ is, i ≠ .store aa ∧ i.wf = true) →
    execAll is t = .next u → exec (.load aa) u = .next v → v.acc = s.acc) ∧
  (∀ aa (s t u : State), s.Inv → s.AtCycleStart → 0 ≤ aa → aa ≤ 99 → exec (.load aa) s = .next t →
    exec (.store aa) t = .next u → u.mem = s.mem)

/-! ### Control transfer -/

/-- 44_branch.md R130. -/
def Obligations.BranchFollowsItsRule : Prop :=
  (∀ aa, 0 ≤ aa → aa ≤ 99 → decode (600 + aa) = .branch aa) ∧
  ∀ aa (s : State), s.AtCycleStart →
    (0 ≤ aa → aa ≤ 99 → exec (.branch aa) s = .next { decodedAt 6 aa s with pc := aa }) ∧
    (aa < 0 → exec (.branch aa) s = .next (faultedWith .illegalOperand s.pc (decodedAt 6 aa s)))

/-- 44_branch.md R131. -/
def Obligations.BranchIfZeroFollowsItsRule : Prop :=
  (∀ aa, 0 ≤ aa → aa ≤ 99 → decode (700 + aa) = .branchIfZero aa) ∧
  ∀ aa (s : State), s.AtCycleStart → 0 ≤ aa → aa ≤ 99 →
    (s.acc = 0 → exec (.branchIfZero aa) s = .next { decodedAt 7 aa s with pc := aa }) ∧
    (s.acc ≠ 0 → s.pc ≤ 98 → exec (.branchIfZero aa) s = .next (decodedAt 7 aa s)) ∧
    (s.acc ≠ 0 → s.pc = 99 →
      exec (.branchIfZero aa) s = .next (faultedWith .programOverrun 99 (decodedAt 7 aa s)))

/-- 44_branch.md R132: zero counts as positive. -/
def Obligations.BranchIfPositiveFollowsItsRule : Prop :=
  (∀ aa, 0 ≤ aa → aa ≤ 99 → decode (800 + aa) = .branchIfPositive aa) ∧
  ∀ aa (s : State), s.AtCycleStart → 0 ≤ aa → aa ≤ 99 →
    (0 ≤ s.acc → exec (.branchIfPositive aa) s = .next { decodedAt 8 aa s with pc := aa }) ∧
    (s.acc < 0 → s.pc ≤ 98 → exec (.branchIfPositive aa) s = .next (decodedAt 8 aa s)) ∧
    (s.acc < 0 → s.pc = 99 →
      exec (.branchIfPositive aa) s = .next (faultedWith .programOverrun 99 (decodedAt 8 aa s)))

/-- 44_branch.md R133: only the three branches write `PC` beyond the default advance, and always with
their operand; a value that is no instruction word leaves `PC` where it is. -/
def Obligations.OnlyBranchesJump : Prop :=
  ∀ (i : Instr) (s t : State), exec i s = .next t → t.pc ≠ s.pc + 1 →
    (∃ aa, (i = .branch aa ∨ i = .branchIfZero aa ∨ i = .branchIfPositive aa) ∧ t.pc = aa) ∨
    (∃ w, i = .notAWord w ∧ t.pc = s.pc)

/-! ### Input and output -/

/-- 45_io.md R140: the illegal selectors fault before any transfer. -/
def Obligations.IllegalSelectorsFault : Prop :=
  decode 900 = .ioIllegalSelector0 ∧ decode 901 = .input ∧ decode 902 = .output ∧
  (∀ aa, 3 ≤ aa → aa ≤ 99 → decode (900 + aa) = .ioIllegalSelector3To99 aa) ∧
  ∀ s : State, s.AtCycleStart →
    exec .ioIllegalSelector0 s = .next (faultedWith .illegalOperand s.pc (decodedAt 9 0 s)) ∧
    ∀ aa, aa ≠ 1 → aa ≠ 2 →
      exec (.ioIllegalSelector3To99 aa) s =
        .next (faultedWith .illegalOperand s.pc (decodedAt 9 aa s))

/-- 45_io.md R141: the first in-range integer the port supplies is written to `ACC`; every integer
before it is rejected, one event each, and changes nothing else; the integers after it stay with the
port. -/
def Obligations.InputFollowsItsRule : Prop :=
  decode 901 = .input ∧
  ∀ (s : State) (pre : List Int) (v : Int) (post : List Int), s.AtCycleStart →
    s.input = pre ++ v :: post → (∀ x ∈ pre, ¬ InRange x) → InRange v →
    (s.pc ≤ 98 → exec .input s = .next
      { decodedAt 9 1 s with
        acc := v
        input := post
        trace := s.trace ++ pre.map .rejected ++ [.accepted v] }) ∧
    (s.pc = 99 → exec .input s = .next (faultedWith .programOverrun 99
      { decodedAt 9 1 s with
        acc := v
        input := post
        trace := s.trace ++ pre.map .rejected ++ [.accepted v] }))

/-- 45_io.md R145, 10_state.md R31, in the model's own form of the wait, a sub-state in which one step
takes every integer the port has (notes/assumptions/4.md; R31 and R145 leave the form to a model): where
the port supplies no in-range integer, the core is in the input wait, `PC`, `IR`, `AR` as the rule says
and `ACC` old; while nothing comes no step changes anything; the wait ends with the first in-range
integer; and no other instruction waits. -/
def Obligations.InputWaitsUntilAnInRangeValue : Prop :=
  (∀ s : State, s.AtCycleStart → (∀ x ∈ s.input, ¬ InRange x) →
    exec .input s = .next
      { decodedAt 9 1 s with
        inputWait := true
        input := []
        trace := s.trace ++ s.input.map .rejected }) ∧
  (∀ s : State, s.Stalled → step s = .next s) ∧
  (∀ s : State, s.status = .running → s.inputWait = true →
    (∀ x ∈ s.input, ¬ InRange x) →
    step s = .next { s with input := [], trace := s.trace ++ s.input.map .rejected }) ∧
  (∀ (s : State) (pre : List Int) (v : Int) (post : List Int), s.Inv → s.inputWait = true →
    s.input = pre ++ v :: post → (∀ x ∈ pre, ¬ InRange x) → InRange v →
    ∃ t, step s = .next t ∧ t.acc = v ∧ t.inputWait = false ∧ t.input = post ∧
      t.trace = s.trace ++ pre.map .rejected ++ [.accepted v] ∧ t.pc = s.pc ∧ t.mem = s.mem ∧
      (s.pc ≤ 99 → t.status = .running) ∧
      (s.pc = 100 → t.fkind = some .programOverrun ∧ t.faddr = 99)) ∧
  (∀ (i : Instr) (s t : State), i.wf = true → s.inputWait = false → exec i s = .next t →
    t.inputWait = true → i = .input)

/-- 45_io.md R143, R145, in the model's own form of the wait (notes/assumptions/4.md): it makes no
difference whether the port's integers are there when INPUT asks or come while it waits. -/
def Obligations.LateInputIsLikeEarlyInput : Prop :=
  ∀ (s t : State) (vs : List Int), s.AtCycleStart → exec .input s = .next t →
    t.inputWait = true → step (supplyInput vs t) = exec .input (supplyInput vs s)

/-- 45_io.md R142. -/
def Obligations.OutputFollowsItsRule : Prop :=
  decode 902 = .output ∧
  ∀ s : State, s.AtCycleStart →
    (s.pc ≤ 98 → exec .output s =
      .next { decodedAt 9 2 s with trace := s.trace ++ [.output s.acc] }) ∧
    (s.pc = 99 → exec .output s = .next (faultedWith .programOverrun 99
      { decodedAt 9 2 s with trace := s.trace ++ [.output s.acc] }))

/-- 45_io.md R144, 10_state.md R30: events are only appended, by INPUT and OUTPUT alone, and OUTPUT's is
the one that adds to the OUTPUT sequence. -/
def Obligations.TraceGrowsOnlyByIo : Prop :=
  ∀ (i : Instr) (s t : State), i.wf = true → exec i s = .next t →
    ∃ es, t.trace = s.trace ++ es ∧ (i ≠ .input → i ≠ .output → es = []) ∧
      outputs t.trace = outputs s.trace ++ (if i = .output then [s.acc] else [])

/-! ### Who writes and who reads what -/

/-- 20_memory.md R46, R45: only STORE writes memory, and only its operand's mailbox. -/
def Obligations.OnlyStoreWritesMemory : Prop :=
  ∀ (i : Instr) (s t : State), exec i s = .next t →
    (∀ aa, i ≠ .store aa) ∧ t.mem = s.mem ∨
    ∃ aa, i = .store aa ∧ ∀ b : Nat, b ≠ aa.toNat → t.mailbox b = s.mailbox b

/-- 20_memory.md R46: beside the fetch, only ADD, SUBTRACT and LOAD read memory. Any other instruction
does the same with any other memory. -/
def Obligations.OnlyAddSubtractLoadReadMemory : Prop :=
  ∀ (i : Instr) (s t : State) (m : Memory), exec i s = .next t →
    (∀ aa, i ≠ .add aa ∧ i ≠ .subtract aa ∧ i ≠ .load aa) →
    ∃ n, exec i { s with mem := m } = .next { t with mem := n }

/-- 10_state.md R22: only LOAD, ADD, SUBTRACT and INPUT write `ACC`. -/
def Obligations.OnlyLoadArithmeticInputWriteAcc : Prop :=
  ∀ (i : Instr) (s t : State), i.wf = true → exec i s = .next t → t.acc ≠ s.acc →
    i = .input ∨ ∃ aa, i = .add aa ∨ i = .subtract aa ∨ i = .load aa

/-! ### Frames -/

/-- Frame of ADD, SUBTRACT and LOAD, which store nothing: beside `ACC`, `IR`, `AR`, `PC` and the fault
status, nothing changes; a fault status is written only with `FAULTED` (42_arith.md R110, R111;
43_load_store.md R121; 60_exceptions.md R162). -/
def Obligations.AccumulatorInstructionsFrame : Prop :=
  ∀ (i : Instr) aa (s t : State), (i = .add aa ∨ i = .subtract aa ∨ i = .load aa) →
    exec i s = .next t →
    (∀ a : Nat, t.mailbox a = s.mailbox a) ∧ t.ar = aa ∧ t.pc = s.pc + 1 ∧ t.input = s.input ∧
    t.trace = s.trace ∧ t.inputWait = s.inputWait ∧
    (t.status = s.status ∧ t.fkind = s.fkind ∧ t.faddr = s.faddr ∨
      t.status = .faulted ∧ t.fkind ≠ none ∧ t.faddr = s.pc)

/-- Frame of STORE: `ACC`, the port and every mailbox but the one at the effective address, which is the
operand as the meaning's own `effectiveAddress` gives it after decoding (43_load_store.md R120, R123).
-/
def Obligations.StoreFrame : Prop :=
  ∀ aa (s t : State), exec (.store aa) s = .next t →
    (∀ b : Nat, b ≠ (effectiveAddress (decodedAt 3 aa s)).toNat → t.mailbox b = s.mailbox b) ∧
    t.acc = s.acc ∧ t.ir = 3 ∧ t.ar = aa ∧ t.pc = s.pc + 1 ∧ t.input = s.input ∧
    t.trace = s.trace ∧ t.inputWait = s.inputWait ∧
    (t.status = s.status ∧ t.fkind = s.fkind ∧ t.faddr = s.faddr ∨
      t.status = .faulted ∧ t.fkind ≠ none ∧ t.faddr = s.pc ∧
        (t.fkind ≠ some .programOverrun → ∀ b : Nat, t.mailbox b = s.mailbox b))

/-- Frame of HALT, the three branches, the reserved opcode and every illegal encoding: `ACC`, every
mailbox, the port and the trace are unchanged (R100, R101, R130 to R132, R140, R62). -/
def Obligations.ControlInstructionsFrame : Prop :=
  ∀ (i : Instr) (s t : State), i.wf = true → (∀ aa, i ≠ .add aa ∧ i ≠ .subtract aa ∧
      i ≠ .load aa ∧ i ≠ .store aa) → i ≠ .input → i ≠ .output → exec i s = .next t →
    t.acc = s.acc ∧ (∀ a : Nat, t.mailbox a = s.mailbox a) ∧ t.input = s.input ∧
    t.trace = s.trace ∧ t.inputWait = s.inputWait ∧
    (t.status = s.status ∧ t.fkind = s.fkind ∧ t.faddr = s.faddr ∨
      i = .halt ∧ t.status = .halted ∧ t.fkind = s.fkind ∧ t.faddr = s.faddr ∨
      t.status = .faulted ∧ t.fkind ≠ none ∧ t.faddr = s.pc)

/-- Frame of INPUT and OUTPUT: no mailbox changes, OUTPUT leaves `ACC` and the port's integers alone,
and neither raises a fault of its own, only the overrun at 99 (45_io.md R141, R142). -/
def Obligations.IoInstructionsFrame : Prop :=
  ∀ (i : Instr) (s t : State), (i = .input ∨ i = .output) → exec i s = .next t →
    (∀ a : Nat, t.mailbox a = s.mailbox a) ∧ t.ir = 9 ∧ t.ar = (if i = .input then 1 else 2) ∧
    t.pc = s.pc + 1 ∧ (i = .output → t.acc = s.acc ∧ t.input = s.input ∧
      t.inputWait = s.inputWait) ∧
    (t.status = s.status ∧ t.fkind = s.fkind ∧ t.faddr = s.faddr ∨
      99 ≤ s.pc ∧ t.status = .faulted ∧ t.fkind = some .programOverrun ∧ t.faddr = s.pc)

/-! ### Self-modifying code, and determinism -/

/-- 20_memory.md R55 and 70_reset_and_hazards.md R187, which the spec marks as derived: a STORE is seen
by the very next fetch, and one that overwrites its own mailbox executes as fetched. -/
def Obligations.StoreIsSeenByTheNextFetch : Prop :=
  (∀ s : State, s.AtCycleStart → Memory.wf s.mem = true → InRange s.acc → s.pc ≤ 98 →
    s.fetchedWord = 300 + (s.pc + 1) →
    ∃ t, step s = .next t ∧ t.AtCycleStart ∧ step t = exec (decode s.acc) t) ∧
  (∀ s : State, s.AtCycleStart → Memory.wf s.mem = true → InRange s.acc → s.pc ≤ 98 →
    s.fetchedWord = 300 + s.pc →
    ∃ t, step s = .next t ∧ t = { decodedAt 3 s.pc s with mem := t.mem } ∧
      t.mailbox s.pc.toNat = s.acc)

/-- 40_cycle.md R90, 10_state.md R30: the next state is a function of the state and, for INPUT, of the
integers it takes: the trace so far and the integers the port has not yet been asked for make no
difference to anything else. -/
def Obligations.StepIgnoresTraceAndUnreadInput : Prop :=
  ∀ (s t : State) (es : List IoEvent) (more : List Int), step s = .next t → t.inputWait = false →
    step { s with trace := es ++ s.trace, input := s.input ++ more } =
      .next { t with trace := es ++ t.trace, input := t.input ++ more }

/-! ### One program per run -/

/-- 70_reset_and_hazards.md R185, R180, in the model's own form of a run (notes/assumptions/6.md, DESIGN
CHOICE). After Boot the host cannot boot again; its other moves leave every component of the core as it
is and can only add integers for the port to supply; and reset discards everything. Before Boot no cycle
runs. And a Boot offered in any state but the reset state changes nothing. -/
def Obligations.HostCannotReloadOrWriteAfterBoot : Prop :=
  (∀ (tokens : List Int) (s : State),
    Run.host (.boot tokens) { phase := .booted, state := s } = none) ∧
  (∀ (m : HostMove) (s : State) (r : Run), m ≠ .reset →
    Run.host m { phase := .booted, state := s } = some r →
    r.phase = .booted ∧ ∃ vs, r.state = { s with input := s.input ++ vs }) ∧
  (∀ r : Run, r.host .reset = some Run.start) ∧
  (∀ s : State, Run.cycle { phase := .fresh, state := s } = none) ∧
  (∀ (tokens : List Int) (s : State), s ≠ State.reset → boot tokens s = s)

/-- 70_reset_and_hazards.md R185, R180, R189, in the model's own form of a run (notes/assumptions/6.md,
DESIGN CHOICE): however the host and the core move from reset on, with no further reset, Boot happens
once where any cycle runs, the core stands in its reset state until then, and the invariant holds
throughout. -/
def Obligations.EachRunBootsOnce : Prop :=
  ∀ (ms : List RunMove) (r : Run), .host .reset ∉ ms → Run.play ms Run.start = some r →
    (r.phase = .fresh → bootCount ms = 0 ∧ r.state = State.reset ∧ .cycle ∉ ms) ∧
    (r.phase = .booted → bootCount ms = 1) ∧ r.state.Inv

/-- 70_reset_and_hazards.md R189, in the model's own form of a run (notes/assumptions/6.md, DESIGN
CHOICE): reset, Boot, the port's integers and then cycles is a run that the host's protocol admits, for
every program, input and number of cycles, and it goes through the states of the core's own steps. -/
def Obligations.ResetBootAndCyclesIsARun : Prop :=
  ∀ (tokens ins : List Int) (n : Nat),
    ∃ t, core.run n (launch tokens ins) = .next t ∧
      Run.play (.host (.boot tokens) :: .host (.supply ins) :: List.replicate n .cycle) Run.start =
        some { phase := .booted, state := t }
end

