-- ==== Sys2Proof/Laws/Checks.lean ====
section
/-! SUPPORT. The range checks and the parameters as linear arithmetic, so that no proof unfolds them. -/

namespace Sys2Proof

@[simp] theorem between_iff {lo hi v : Int} : between lo hi v = true ↔ lo ≤ v ∧ v ≤ hi := by
  simp [between]

@[simp] theorem isOperand_iff {aa : Int} : isOperand aa = true ↔ 0 ≤ aa ∧ aa ≤ 99 := by
  simp [isOperand]

@[simp] theorem isWord_iff {w : Int} : isWord w = true ↔ 0 ≤ w ∧ w ≤ 999 := by
  simp [isWord, Config.wordMin, Config.wordMax]

@[simp] theorem Config.pcMax_eq : Config.pcMax = 100 := rfl

@[simp] theorem Config.memSize_eq : Config.memSize = 100 := rfl

@[simp] theorem Config.op4Policy_eq : Config.op4Policy = .fault := rfl

namespace Machine

@[simp] theorem inRange_iff {v : Int} : inRange v = true ↔ -999 ≤ v ∧ v ≤ 999 := by
  simp [inRange, Config.valMin, Config.valMax]

@[simp] theorem isAddress_iff {a : Int} : isAddress a = true ↔ 0 ≤ a ∧ a ≤ 99 := by
  rw [isAddress, Bool.and_eq_true, decide_eq_true_eq, decide_eq_true_eq]
  simp only [Config.memSize_eq]
  omega

@[simp] theorem accIsZero_iff {s : State} : accIsZero s = true ↔ s.acc = 0 := by simp [accIsZero]

@[simp] theorem accIsNonNegative_iff {s : State} : accIsNonNegative s = true ↔ 0 ≤ s.acc := by
  simp [accIsNonNegative]

@[simp] theorem operandIsZero_iff {s : State} : operandIsZero s = true ↔ s.ar = 0 := by
  simp [operandIsZero]

@[simp] theorem selectsInput_iff {s : State} : selectsInput s = true ↔ s.ar = 1 := by
  simp [selectsInput]

@[simp] theorem selectsOutput_iff {s : State} : selectsOutput s = true ↔ s.ar = 2 := by
  simp [selectsOutput]

end Machine

end Sys2Proof
end

