-- ==== Sys2Proof/Laws/State.lean ====
section
/-! SUPPORT. One lemma per field per named update of the state, so that no proof unfolds an update. -/

namespace Sys2Proof.Machine

variable (s : State)

/-! ### `State.raise` -/

@[simp] theorem State.raise_pc (k : FaultKind) (a : Int) : (s.raise k a).pc = s.pc := rfl
@[simp] theorem State.raise_acc (k : FaultKind) (a : Int) : (s.raise k a).acc = s.acc := rfl
@[simp] theorem State.raise_ir (k : FaultKind) (a : Int) : (s.raise k a).ir = s.ir := rfl
@[simp] theorem State.raise_ar (k : FaultKind) (a : Int) : (s.raise k a).ar = s.ar := rfl
@[simp] theorem State.raise_mem (k : FaultKind) (a : Int) : (s.raise k a).mem = s.mem := rfl
@[simp] theorem State.raise_status (k : FaultKind) (a : Int) : (s.raise k a).status = .faulted := rfl
@[simp] theorem State.raise_fkind (k : FaultKind) (a : Int) : (s.raise k a).fkind = some k := rfl
@[simp] theorem State.raise_faddr (k : FaultKind) (a : Int) : (s.raise k a).faddr = a := rfl
@[simp] theorem State.raise_inputWait (k : FaultKind) (a : Int) : (s.raise k a).inputWait = s.inputWait := rfl
@[simp] theorem State.raise_input (k : FaultKind) (a : Int) : (s.raise k a).input = s.input := rfl
@[simp] theorem State.raise_trace (k : FaultKind) (a : Int) : (s.raise k a).trace = s.trace := rfl
@[simp] theorem State.raise_mailbox (k : FaultKind) (a : Int) (b : Nat) : (s.raise k a).mailbox b = s.mailbox b := rfl

/-! ### `State.latch` -/

@[simp] theorem State.latch_pc (o a : Int) : (s.latch o a).pc = s.pc := rfl
@[simp] theorem State.latch_acc (o a : Int) : (s.latch o a).acc = s.acc := rfl
@[simp] theorem State.latch_ir (o a : Int) : (s.latch o a).ir = o := rfl
@[simp] theorem State.latch_ar (o a : Int) : (s.latch o a).ar = a := rfl
@[simp] theorem State.latch_mem (o a : Int) : (s.latch o a).mem = s.mem := rfl
@[simp] theorem State.latch_status (o a : Int) : (s.latch o a).status = s.status := rfl
@[simp] theorem State.latch_fkind (o a : Int) : (s.latch o a).fkind = s.fkind := rfl
@[simp] theorem State.latch_faddr (o a : Int) : (s.latch o a).faddr = s.faddr := rfl
@[simp] theorem State.latch_inputWait (o a : Int) : (s.latch o a).inputWait = s.inputWait := rfl
@[simp] theorem State.latch_input (o a : Int) : (s.latch o a).input = s.input := rfl
@[simp] theorem State.latch_trace (o a : Int) : (s.latch o a).trace = s.trace := rfl
@[simp] theorem State.latch_mailbox (o a : Int) (b : Nat) : (s.latch o a).mailbox b = s.mailbox b := rfl

/-! ### `State.advance` -/

@[simp] theorem State.advance_pc (a : Int) : (s.advance a).pc = a + 1 := rfl
@[simp] theorem State.advance_acc (a : Int) : (s.advance a).acc = s.acc := rfl
@[simp] theorem State.advance_ir (a : Int) : (s.advance a).ir = s.ir := rfl
@[simp] theorem State.advance_ar (a : Int) : (s.advance a).ar = s.ar := rfl
@[simp] theorem State.advance_mem (a : Int) : (s.advance a).mem = s.mem := rfl
@[simp] theorem State.advance_status (a : Int) : (s.advance a).status = s.status := rfl
@[simp] theorem State.advance_fkind (a : Int) : (s.advance a).fkind = s.fkind := rfl
@[simp] theorem State.advance_faddr (a : Int) : (s.advance a).faddr = s.faddr := rfl
@[simp] theorem State.advance_inputWait (a : Int) : (s.advance a).inputWait = s.inputWait := rfl
@[simp] theorem State.advance_input (a : Int) : (s.advance a).input = s.input := rfl
@[simp] theorem State.advance_trace (a : Int) : (s.advance a).trace = s.trace := rfl
@[simp] theorem State.advance_mailbox (a : Int) (b : Nat) : (s.advance a).mailbox b = s.mailbox b := rfl

/-! ### `State.emit` -/

@[simp] theorem State.emit_pc (e : IoEvent) : (s.emit e).pc = s.pc := rfl
@[simp] theorem State.emit_acc (e : IoEvent) : (s.emit e).acc = s.acc := rfl
@[simp] theorem State.emit_ir (e : IoEvent) : (s.emit e).ir = s.ir := rfl
@[simp] theorem State.emit_ar (e : IoEvent) : (s.emit e).ar = s.ar := rfl
@[simp] theorem State.emit_mem (e : IoEvent) : (s.emit e).mem = s.mem := rfl
@[simp] theorem State.emit_status (e : IoEvent) : (s.emit e).status = s.status := rfl
@[simp] theorem State.emit_fkind (e : IoEvent) : (s.emit e).fkind = s.fkind := rfl
@[simp] theorem State.emit_faddr (e : IoEvent) : (s.emit e).faddr = s.faddr := rfl
@[simp] theorem State.emit_inputWait (e : IoEvent) : (s.emit e).inputWait = s.inputWait := rfl
@[simp] theorem State.emit_input (e : IoEvent) : (s.emit e).input = s.input := rfl
@[simp] theorem State.emit_trace (e : IoEvent) : (s.emit e).trace = s.trace ++ [e] := rfl
@[simp] theorem State.emit_mailbox (e : IoEvent) (b : Nat) : (s.emit e).mailbox b = s.mailbox b := rfl

/-! ### `jumpToOperand` -/

@[simp] theorem jumpToOperand_pc : (jumpToOperand s).pc = s.ar := rfl
@[simp] theorem jumpToOperand_acc : (jumpToOperand s).acc = s.acc := rfl
@[simp] theorem jumpToOperand_ir : (jumpToOperand s).ir = s.ir := rfl
@[simp] theorem jumpToOperand_ar : (jumpToOperand s).ar = s.ar := rfl
@[simp] theorem jumpToOperand_mem : (jumpToOperand s).mem = s.mem := rfl
@[simp] theorem jumpToOperand_status : (jumpToOperand s).status = s.status := rfl
@[simp] theorem jumpToOperand_fkind : (jumpToOperand s).fkind = s.fkind := rfl
@[simp] theorem jumpToOperand_faddr : (jumpToOperand s).faddr = s.faddr := rfl
@[simp] theorem jumpToOperand_inputWait : (jumpToOperand s).inputWait = s.inputWait := rfl
@[simp] theorem jumpToOperand_input : (jumpToOperand s).input = s.input := rfl
@[simp] theorem jumpToOperand_trace : (jumpToOperand s).trace = s.trace := rfl
@[simp] theorem jumpToOperand_mailbox (b : Nat) : (jumpToOperand s).mailbox b = s.mailbox b := rfl

/-! ### `supplyInput` -/

@[simp] theorem supplyInput_pc (vs : List Int) : (supplyInput vs s).pc = s.pc := rfl
@[simp] theorem supplyInput_acc (vs : List Int) : (supplyInput vs s).acc = s.acc := rfl
@[simp] theorem supplyInput_ir (vs : List Int) : (supplyInput vs s).ir = s.ir := rfl
@[simp] theorem supplyInput_ar (vs : List Int) : (supplyInput vs s).ar = s.ar := rfl
@[simp] theorem supplyInput_mem (vs : List Int) : (supplyInput vs s).mem = s.mem := rfl
@[simp] theorem supplyInput_status (vs : List Int) : (supplyInput vs s).status = s.status := rfl
@[simp] theorem supplyInput_fkind (vs : List Int) : (supplyInput vs s).fkind = s.fkind := rfl
@[simp] theorem supplyInput_faddr (vs : List Int) : (supplyInput vs s).faddr = s.faddr := rfl
@[simp] theorem supplyInput_inputWait (vs : List Int) : (supplyInput vs s).inputWait = s.inputWait := rfl
@[simp] theorem supplyInput_input (vs : List Int) : (supplyInput vs s).input = s.input ++ vs := rfl
@[simp] theorem supplyInput_trace (vs : List Int) : (supplyInput vs s).trace = s.trace := rfl
@[simp] theorem supplyInput_mailbox (vs : List Int) (b : Nat) : (supplyInput vs s).mailbox b = s.mailbox b := rfl

end Sys2Proof.Machine
end

