-- ==== Sys2Proof/Laws/Memory.lean ====
section
/-! SUPPORT. The memory list: read after write, and that every memory operation keeps the canonical form
and the range of the mailboxes. -/

namespace Sys2Proof.Machine

theorem Memory.wfFrom_cons {lo k : Nat} {v : Int} {m : Memory} :
    Memory.wfFrom lo ((k, v) :: m) = true ↔
      lo ≤ k ∧ k < 100 ∧ v ≠ 0 ∧ Memory.wfFrom (k + 1) m = true := by
  simp only [Memory.wfFrom, Bool.and_eq_true, decide_eq_true_eq, and_assoc]
  exact Iff.rfl

theorem Memory.wfFrom_mono {lo lo' : Nat} {m : Memory} (h : Memory.wfFrom lo m = true)
    (hlo : lo' ≤ lo) : Memory.wfFrom lo' m = true := by
  cases m with
  | nil => rfl
  | cons kv m =>
    rw [Memory.wfFrom_cons] at h ⊢
    exact ⟨hlo.trans h.1, h.2⟩

/-- Below its first address a canonical list holds 0. -/
theorem Memory.get_below {m : Memory} : ∀ {lo a : Nat}, Memory.wfFrom lo m = true → a < lo →
    Memory.get m a = 0 := by
  induction m with
  | nil => intros; rfl
  | cons kv m ih =>
    intro lo a h ha
    rw [Memory.wfFrom_cons] at h
    have hk : kv.1 ≠ a := by omega
    simp [Memory.get, hk, ih h.2.2.2 (show a < kv.1 + 1 by omega)]

/-- Past the last mailbox a canonical list holds 0. -/
theorem Memory.get_above {m : Memory} : ∀ {lo a : Nat}, Memory.wfFrom lo m = true → 100 ≤ a →
    Memory.get m a = 0 := by
  induction m with
  | nil => intros; rfl
  | cons kv m ih =>
    intro lo a h ha
    rw [Memory.wfFrom_cons] at h
    have hk : kv.1 ≠ a := by omega
    simp [Memory.get, hk, ih h.2.2.2 ha]

@[simp] theorem Memory.get_cons (m : Memory) (a b : Nat) (v : Int) (h : Memory.get m a = 0) :
    Memory.get (Memory.cons a v m) b = if b = a then v else Memory.get m b := by
  by_cases hb : a = b
  · by_cases hv : v = 0 <;> simp_all [Memory.cons, Memory.get]
  · by_cases hv : v = 0 <;> simp [Memory.cons, Memory.get, hb, hv, Ne.symm hb]

/-- A write leaves every other mailbox alone, whatever the list. -/
theorem Memory.get_set_other {m : Memory} {a b : Nat} (v : Int) (h : b ≠ a) :
    Memory.get (Memory.set m a v) b = Memory.get m b := by
  have hc : ∀ n : Memory, Memory.get (Memory.cons a v n) b = Memory.get n b := by
    intro n
    by_cases hv : v = 0 <;> simp [Memory.cons, Memory.get, hv, h.symm]
  induction m with
  | nil => exact hc _
  | cons kv m ih =>
    obtain ⟨k, w⟩ := kv
    simp only [Memory.set]
    split
    · exact hc _
    · split
      · rename_i hak
        rw [hc, Memory.get, if_neg (by omega)]
      · simp [Memory.get, ih]

theorem Memory.get_set_same_from {m : Memory} : ∀ {lo a : Nat} {v : Int},
    Memory.wfFrom lo m = true → Memory.get (Memory.set m a v) a = v := by
  induction m with
  | nil => intro lo a v _; rw [Memory.set, Memory.get_cons _ _ _ _ rfl, if_pos rfl]
  | cons kv m ih =>
    intro lo a v h
    obtain ⟨k, w⟩ := kv
    have h' := Memory.wfFrom_cons.1 h
    simp only [Memory.set]
    split
    · rename_i hak
      rw [Memory.get_cons, if_pos rfl]
      exact Memory.get_below (Memory.wfFrom_cons.2 ⟨le_refl k, h'.2⟩) hak
    · split
      · rename_i hak
        rw [Memory.get_cons, if_pos rfl]
        exact Memory.get_below h'.2.2.2 (by omega)
      · rename_i hne
        rw [Memory.get, if_neg (by omega)]
        exact ih h'.2.2.2

/-- A read after a write to the same mailbox gives the value written. -/
theorem Memory.get_set_same {m : Memory} (a : Nat) (v : Int) (h : Memory.wf m = true) :
    Memory.get (Memory.set m a v) a = v := Memory.get_set_same_from h

theorem Memory.cons_wfFrom {m : Memory} {lo a : Nat} (v : Int) (h : Memory.wfFrom (a + 1) m = true)
    (hlo : lo ≤ a) (ha : a < 100) : Memory.wfFrom lo (Memory.cons a v m) = true := by
  by_cases hv : v = 0
  · simpa [Memory.cons, hv] using Memory.wfFrom_mono h (by omega)
  · simpa [Memory.cons, hv] using Memory.wfFrom_cons.2 ⟨hlo, ha, hv, h⟩

theorem Memory.set_wfFrom {m : Memory} : ∀ {lo a : Nat} (v : Int), Memory.wfFrom lo m = true →
    lo ≤ a → a < 100 → Memory.wfFrom lo (Memory.set m a v) = true := by
  induction m with
  | nil => intro lo a v h hlo ha; exact Memory.cons_wfFrom v rfl hlo ha
  | cons kv m ih =>
    intro lo a v h hlo ha
    obtain ⟨k, w⟩ := kv
    have h' := Memory.wfFrom_cons.1 h
    simp only [Memory.set]
    split
    · exact Memory.cons_wfFrom v (Memory.wfFrom_cons.2 ⟨by omega, h'.2⟩) hlo ha
    · split
      · rename_i hak
        exact Memory.cons_wfFrom v (hak ▸ h'.2.2.2) hlo ha
      · exact Memory.wfFrom_cons.2 ⟨h'.1, h'.2.1, h'.2.2.1, ih v h'.2.2.2 (by omega) ha⟩

/-- A write to an address keeps the canonical form. -/
theorem Memory.set_wf {m : Memory} {a : Nat} (v : Int) (h : Memory.wf m = true) (ha : a < 100) :
    Memory.wf (Memory.set m a v) = true := Memory.set_wfFrom v h (Nat.zero_le a) ha

/-- A write of an in-range value keeps every mailbox in range. -/
theorem Memory.set_range {m : Memory} {a : Nat} {v : Int} (hw : Memory.wf m = true)
    (hm : ∀ b, -999 ≤ Memory.get m b ∧ Memory.get m b ≤ 999) (hv : -999 ≤ v ∧ v ≤ 999) (b : Nat) :
    -999 ≤ Memory.get (Memory.set m a v) b ∧ Memory.get (Memory.set m a v) b ≤ 999 := by
  by_cases h : b = a
  · rw [h, Memory.get_set_same a v hw]; exact hv
  · rw [Memory.get_set_other v h]; exact hm b

/-! ### The two primitives -/

/-- What `MemRead` answers (20_memory.md R42). -/
theorem memRead_eq (a : Int) (s : State) :
    memRead a s = if 0 ≤ a ∧ a ≤ 99 then .ok (s.mailbox a.toNat) else .error .addressFault := by
  simp [memRead]

theorem memRead_ok {a m : Int} {s : State} :
    memRead a s = .ok m ↔ (0 ≤ a ∧ a ≤ 99) ∧ s.mailbox a.toNat = m := by
  rw [memRead_eq]; split <;> simp_all

theorem memRead_error {a : Int} {k : FaultKind} {s : State} :
    memRead a s = .error k ↔ ¬ (0 ≤ a ∧ a ≤ 99) ∧ k = .addressFault := by
  rw [memRead_eq]; split <;> simp_all [eq_comm]

/-- When `MemWrite` answers a state, and which (20_memory.md R43). -/
theorem memWrite_ok {a v : Int} {s t : State} :
    memWrite a v s = .ok t ↔
      (0 ≤ a ∧ a ≤ 99) ∧ (-999 ≤ v ∧ v ≤ 999) ∧ t = { s with mem := Memory.set s.mem a.toNat v } := by
  simp only [memWrite, isAddress_iff, inRange_iff]
  split <;> [split; skip] <;> simp_all [eq_comm]

/-- Which fault `MemWrite` raises, and when (20_memory.md R43). -/
theorem memWrite_error {a v : Int} {k : FaultKind} {s : State} :
    memWrite a v s = .error k ↔
      ¬ (0 ≤ a ∧ a ≤ 99) ∧ k = .addressFault ∨
        (0 ≤ a ∧ a ≤ 99) ∧ ¬ (-999 ≤ v ∧ v ≤ 999) ∧ k = .valueFault := by
  simp only [memWrite, isAddress_iff, inRange_iff]
  split <;> [split; skip] <;> simp_all [eq_comm]

/-! ### The memory of a failed Boot -/

/-- Loading any in-range values into the first mailboxes keeps the canonical form and the range. -/
theorem Memory.fill_wf (value : Nat → Int) (hv : ∀ a, -999 ≤ value a ∧ value a ≤ 999) :
    ∀ (as : List Nat) (m : Memory), (∀ a ∈ as, a < 100) → Memory.wf m = true →
      (∀ b, -999 ≤ Memory.get m b ∧ Memory.get m b ≤ 999) →
      Memory.wf (as.foldl (fun m a => Memory.set m a (value a)) m) = true ∧
      ∀ b, -999 ≤ Memory.get (as.foldl (fun m a => Memory.set m a (value a)) m) b ∧
        Memory.get (as.foldl (fun m a => Memory.set m a (value a)) m) b ≤ 999 := by
  intro as
  induction as with
  | nil => intro m _ hw hm; exact ⟨hw, hm⟩
  | cons a as ih =>
    intro m has hw hm
    exact ih _ (fun b hb => has b (List.mem_cons_of_mem a hb))
      (Memory.set_wf _ hw (has a List.mem_cons_self)) (Memory.set_range hw hm (hv a))

/-- The memory a failed Boot leaves is canonical and in range, whatever the free values are. -/
theorem failedBootMemory_wf (tokens : List Int) :
    Memory.wf (failedBootMemory tokens) = true ∧
      ∀ b, -999 ≤ Memory.get (failedBootMemory tokens) b ∧
        Memory.get (failedBootMemory tokens) b ≤ 999 := by
  unfold failedBootMemory
  refine Memory.fill_wf (fun a => ((Config.failedBootMailbox tokens a).val : Int) + Config.valMin)
    ?_ _ [] ?_ rfl ?_
  · intro a
    have := (Config.failedBootMailbox tokens a).isLt
    simp only [Config.valMin]
    omega
  · intro a ha; simpa using ha
  · intro b; simp [Memory.get]

/-- The memory right after reset is in canonical form. -/
theorem reset_mem_wf : Memory.wf State.reset.mem = true := rfl

end Sys2Proof.Machine
end

