-- ==== Sys2Proof/Laws/Boot.lean ====
section
/-! SUPPORT. What Boot does (70_reset_and_hazards.md R181, R182). -/

namespace Sys2Proof.Machine

/-- One turn of Boot's loop. -/
theorem bootLoop_cons (k : Nat) (t : Int) (ts : List Int) (m : Memory) :
    bootLoop k (t :: ts) m =
      if k < 100 then
        if 0 ≤ t ∧ t ≤ 999 then bootLoop (k + 1) ts (Memory.set m k t) else .error k
      else .ok m := by
  simp only [bootLoop, isWord_iff, Config.memSize_eq]

theorem boot_ok {tokens : List Int} {m : Memory} (h : bootLoop 0 tokens [] = .ok m) :
    boot tokens State.reset = { State.reset with mem := m } := by
  rw [boot, if_pos rfl, show State.reset.mem = [] from rfl, h]

theorem boot_error {tokens : List Int} {k : Nat} (h : bootLoop 0 tokens [] = .error k) :
    boot tokens State.reset =
      ({ State.reset with mem := failedBootMemory tokens } : State).raise .malformedProgram
        (k : Int) := by
  rw [boot, if_pos rfl, show State.reset.mem = [] from rfl, h]

/-- Outside the reset state the core accepts no Boot. -/
theorem boot_refused {tokens : List Int} {s : State} (h : s ≠ State.reset) : boot tokens s = s := by
  rw [boot, if_neg h]

/-- Boot's loop either loads a canonical, in-range memory or rejects a token among the first 100. -/
theorem bootLoop_cases (tokens : List Int) : ∀ (k : Nat) (m : Memory), Memory.wf m = true →
    (∀ b, -999 ≤ Memory.get m b ∧ Memory.get m b ≤ 999) →
    (∃ n, bootLoop k tokens m = .ok n ∧ Memory.wf n = true ∧
      ∀ b, -999 ≤ Memory.get n b ∧ Memory.get n b ≤ 999) ∨
    ∃ j, bootLoop k tokens m = .error j ∧ j < 100 := by
  induction tokens with
  | nil => intro k m hw hm; exact .inl ⟨m, rfl, hw, hm⟩
  | cons t ts ih =>
    intro k m hw hm
    rw [bootLoop_cons]
    split
    · rename_i hk
      split
      · rename_i ht
        exact ih _ _ (Memory.set_wf t hw hk) (Memory.set_range hw hm (by omega))
      · exact .inr ⟨k, rfl, hk⟩
    · exact .inl ⟨m, rfl, hw, hm⟩

/-- The token that Boot's loop rejects is the first one outside `0 .. 999`. -/
theorem bootLoop_error (tokens : List Int) : ∀ {k j : Nat} {m : Memory},
    bootLoop k tokens m = .error j →
    ∃ i u, j = k + i ∧ j < 100 ∧ tokens[i]? = some u ∧ ¬ (0 ≤ u ∧ u ≤ 999) ∧
      ∀ (n : Nat) (v : Int), n < i → tokens[n]? = some v → 0 ≤ v ∧ v ≤ 999 := by
  induction tokens with
  | nil => intro k j m h; exact absurd h (by simp [bootLoop])
  | cons t ts ih =>
    intro k j m h
    rw [bootLoop_cons] at h
    split at h
    · rename_i hk
      split at h
      · rename_i ht
        obtain ⟨i, u, rfl, hj, hu, hbad, hgood⟩ := ih h
        refine ⟨i + 1, u, by omega, hj, by simpa using hu, hbad, fun n v hn hv => ?_⟩
        cases n with
        | zero => obtain rfl : t = v := by simpa using hv
                  exact ht
        | succ n => exact hgood n v (by omega) (by simpa using hv)
      · rename_i ht
        obtain rfl : k = j := by simpa using h
        exact ⟨0, t, rfl, hk, rfl, ht, fun n _ hn => absurd hn (by omega)⟩
    · exact absurd h (by simp)

end Sys2Proof.Machine
end

