-- ==== Sys2Proof/Laws/Cycle.lean ====
section
/-! SUPPORT. What the cycle around a handler can do, and what each handler can do: said once, for every
proof about an instruction to cite. -/

namespace Sys2Proof.Machine

/-! ### Step 5 and the cycle -/

/-- Step 5 leaves a state alone that halted, faulted or waits, or whose `PC` is an address. -/
theorem overrunCheck_self {a : Int} {s : State}
    (h : s.status = .running → s.inputWait = false → s.pc ≤ 99) : overrunCheck a s = s := by
  unfold overrunCheck
  split
  · rename_i hc
    have := h hc.1 hc.2.1
    have := hc.2.2
    simp only [Config.pcMax_eq] at this
    omega
  · rfl

/-- Step 5 raises the overrun (40_cycle.md R86). -/
theorem overrunCheck_raise {a : Int} {s : State} (h : s.status = .running)
    (hw : s.inputWait = false) (hp : 100 ≤ s.pc) :
    overrunCheck a s = s.raise .programOverrun a := if_pos ⟨h, hw, hp⟩

/-- All that step 5 can do. -/
theorem overrunCheck_cases (a : Int) (s : State) :
    (overrunCheck a s = s ∧ (s.status = .running → s.inputWait = false → s.pc ≤ 99)) ∨
    (overrunCheck a s = s.raise .programOverrun a ∧ s.status = .running ∧ s.inputWait = false ∧
      100 ≤ s.pc) := by
  by_cases h : s.status = .running ∧ s.inputWait = false ∧ 100 ≤ s.pc
  · exact .inr ⟨overrunCheck_raise h.1 h.2.1 h.2.2, h⟩
  · have h' : s.status = .running → s.inputWait = false → s.pc ≤ 99 := fun a b => by
      by_contra hc; exact h ⟨a, b, by omega⟩
    exact .inl ⟨overrunCheck_self h', h'⟩

/-! Step 5 writes nothing but the fault status. -/

section
variable (a : Int) (s : State)

@[simp] theorem overrunCheck_pc : (overrunCheck a s).pc = s.pc := by
  unfold overrunCheck; split <;> rfl

@[simp] theorem overrunCheck_acc : (overrunCheck a s).acc = s.acc := by
  unfold overrunCheck; split <;> rfl

@[simp] theorem overrunCheck_ir : (overrunCheck a s).ir = s.ir := by
  unfold overrunCheck; split <;> rfl

@[simp] theorem overrunCheck_ar : (overrunCheck a s).ar = s.ar := by
  unfold overrunCheck; split <;> rfl

@[simp] theorem overrunCheck_mem : (overrunCheck a s).mem = s.mem := by
  unfold overrunCheck; split <;> rfl

@[simp] theorem overrunCheck_inputWait : (overrunCheck a s).inputWait = s.inputWait := by
  unfold overrunCheck; split <;> rfl

@[simp] theorem overrunCheck_input : (overrunCheck a s).input = s.input := by
  unfold overrunCheck; split <;> rfl

@[simp] theorem overrunCheck_trace : (overrunCheck a s).trace = s.trace := by
  unfold overrunCheck; split <;> rfl

@[simp] theorem overrunCheck_mailbox (b : Nat) : (overrunCheck a s).mailbox b = s.mailbox b :=
  congrArg (Memory.get · b) (overrunCheck_mem a s)

end

/-- The state in which a handler runs: after steps 2 and 3. -/
theorem cycle_ok {opcode aa : Int} {f : Handler} {s t : State}
    (h : f ((s.latch opcode aa).advance s.pc) = .ok t) :
    cycle opcode aa f s = overrunCheck s.pc t := by simp only [cycle, h]

theorem cycle_error {opcode aa : Int} {f : Handler} {k : FaultKind} {s : State}
    (h : f ((s.latch opcode aa).advance s.pc) = .error k) :
    cycle opcode aa f s = ((s.latch opcode aa).advance s.pc).raise k s.pc := by
  simp only [cycle, h]

/-- All that a cycle can do (40_cycle.md R87): the handler completes, and step 5 follows; or it raises,
and steps 2 and 3 stand. -/
theorem cycle_cases (opcode aa : Int) (f : Handler) (s : State) :
    (∃ t, f ((s.latch opcode aa).advance s.pc) = .ok t ∧
      cycle opcode aa f s = overrunCheck s.pc t) ∨
    (∃ k, f ((s.latch opcode aa).advance s.pc) = .error k ∧
      cycle opcode aa f s = ((s.latch opcode aa).advance s.pc).raise k s.pc) := by
  cases h : f ((s.latch opcode aa).advance s.pc) with
  | ok t => exact .inl ⟨t, rfl, cycle_ok h⟩
  | error k => exact .inr ⟨k, rfl, cycle_error h⟩

/-! ### The handlers -/

/-- `writeAcc` by its range check (42_arith.md R112). -/
theorem writeAcc_eq (r : Int) (s : State) :
    writeAcc r s = if -999 ≤ r ∧ r ≤ 999 then .ok { s with acc := r } else .error .overflow := by
  simp [writeAcc]

/-- ADD and SUBTRACT read memory first, and then check the exact result. -/
theorem aluHandler_eq (f : Int → Int → Int) (s : State) :
    aluHandler f s =
      if 0 ≤ s.ar ∧ s.ar ≤ 99 then
        if -999 ≤ f s.acc (s.mailbox s.ar.toNat) ∧ f s.acc (s.mailbox s.ar.toNat) ≤ 999 then
          .ok { s with acc := f s.acc (s.mailbox s.ar.toNat) }
        else .error .overflow
      else .error .addressFault := by
  simp only [aluHandler, memOperand, effectiveAddress, memRead_eq]
  split
  · rename_i h; split at h <;> simp_all [writeAcc_eq]
  · rename_i h; split at h <;> simp_all

theorem storeHandler_eq (s : State) :
    storeHandler s =
      if s.ar < 0 then .error .illegalOperand
      else if s.ar ≤ 99 then
        if -999 ≤ s.acc ∧ s.acc ≤ 999 then
          .ok { s with mem := Memory.set s.mem s.ar.toNat s.acc }
        else .error .valueFault
      else .error .addressFault := by
  simp only [storeHandler, requireNonNegative, effectiveAddress, memWrite, isAddress_iff,
    inRange_iff]
  by_cases h : s.ar < 0
  · rw [if_pos h, if_pos h]
  · simp only [if_neg h, Int.not_lt.1 h, true_and]

theorem loadHandler_eq (s : State) :
    loadHandler s =
      if s.ar < 0 then .error .illegalOperand
      else if s.ar ≤ 99 then
        if -999 ≤ s.mailbox s.ar.toNat ∧ s.mailbox s.ar.toNat ≤ 999 then
          .ok { s with acc := s.mailbox s.ar.toNat }
        else .error .overflow
      else .error .addressFault := by
  simp only [loadHandler, requireNonNegative, memOperand, effectiveAddress, memRead_eq]
  by_cases h : s.ar < 0
  · rw [if_pos h, if_pos h]
  · by_cases h' : s.ar ≤ 99
    · simp only [if_neg h, Int.not_lt.1 h, h', true_and, if_true, writeAcc_eq]
    · simp only [if_neg h, h', and_false, if_false]

theorem haltHandler_eq (s : State) :
    haltHandler s = if s.ar = 0 then .ok { s with status := .halted } else .error .illegalOperand := by
  simp [haltHandler]

theorem reserved4Handler_fault (s : State) :
    reserved4Handler Config.op4Policy s = .error .unimplementedOpcode := rfl

theorem branchHandler_eq (s : State) :
    branchHandler s = if s.ar < 0 then .error .illegalOperand else .ok (jumpToOperand s) := rfl

theorem branchIfZeroHandler_eq (s : State) :
    branchIfZeroHandler s = .ok (if s.acc = 0 then jumpToOperand s else s) := by
  simp [branchIfZeroHandler]

theorem branchIfPositiveHandler_eq (s : State) :
    branchIfPositiveHandler s = .ok (if 0 ≤ s.acc then jumpToOperand s else s) := by
  simp [branchIfPositiveHandler]

theorem ioHandler_eq (s : State) :
    ioHandler s =
      if s.ar = 1 then .ok (inputHandler s)
      else if s.ar = 2 then .ok (outputHandler s)
      else .error .illegalOperand := by
  simp [ioHandler]

/-! ### The loop of INPUT -/

/-- The loop takes the first in-range integer and rejects every one before it. -/
theorem inputLoop_accepts (pre : List Int) {v : Int} (post : List Int)
    (hpre : ∀ x ∈ pre, ¬ (-999 ≤ x ∧ x ≤ 999)) (hv : -999 ≤ v ∧ v ≤ 999) (s : State) :
    inputLoop (pre ++ v :: post) s =
      { s with
        acc := v
        input := post
        inputWait := false
        trace := s.trace ++ pre.map .rejected ++ [.accepted v] } := by
  induction pre generalizing s with
  | nil => simp [inputLoop, hv, State.emit]
  | cons x xs ih =>
    have hx : ¬ inRange x = true := fun h => hpre x List.mem_cons_self (inRange_iff.1 h)
    rw [List.cons_append, inputLoop, if_neg hx, ih fun y hy => hpre y (List.mem_cons_of_mem x hy)]
    simp [State.emit]

/-- With no in-range integer left, the loop rejects them all and waits. -/
theorem inputLoop_waits (vs : List Int) (h : ∀ x ∈ vs, ¬ (-999 ≤ x ∧ x ≤ 999)) (s : State) :
    inputLoop vs s =
      { s with input := [], inputWait := true, trace := s.trace ++ vs.map .rejected } := by
  induction vs generalizing s with
  | nil => simp [inputLoop]
  | cons x xs ih =>
    have hx : ¬ inRange x = true := fun h' => h x List.mem_cons_self (inRange_iff.1 h')
    rw [inputLoop, if_neg hx, ih fun y hy => h y (List.mem_cons_of_mem x hy)]
    simp [State.emit]

/-- Every list of integers either has a first in-range one or has none. -/
theorem firstInRange_cases (vs : List Int) :
    (∃ pre v post, vs = pre ++ v :: post ∧ (∀ x ∈ pre, ¬ (-999 ≤ x ∧ x ≤ 999)) ∧
      (-999 ≤ v ∧ v ≤ 999)) ∨ ∀ x ∈ vs, ¬ (-999 ≤ x ∧ x ≤ 999) := by
  induction vs with
  | nil => exact .inr fun _ h => absurd h List.not_mem_nil
  | cons x xs ih =>
    by_cases hx : -999 ≤ x ∧ x ≤ 999
    · exact .inl ⟨[], x, xs, rfl, fun _ h => absurd h List.not_mem_nil, hx⟩
    · rcases ih with ⟨pre, v, post, rfl, hpre, hv⟩ | h
      · refine .inl ⟨x :: pre, v, post, rfl, ?_, hv⟩
        intro y hy
        rcases List.mem_cons.1 hy with rfl | hy
        · exact hx
        · exact hpre y hy
      · refine .inr fun y hy => ?_
        rcases List.mem_cons.1 hy with rfl | hy
        · exact hx
        · exact h y hy

/-! ### Every instruction completes -/

/-- No instruction stops the model: `exec` answers a next state for every instruction at every state. -/
theorem exec_next (i : Instr) (s : State) : ∃ t, exec i s = .next t := by
  cases i <;> exact ⟨_, rfl⟩

end Sys2Proof.Machine
end

