-- ==== Sys2Proof/Laws/Decode.lean ====
section
/-! SUPPORT. The digits of a word and of an encoded instruction. -/

namespace Sys2Proof

theorem opcodeDigit_wordOf {o aa : Int} (h : 0 ≤ aa ∧ aa ≤ 99) : opcodeDigit (wordOf o aa) = o := by
  simp only [opcodeDigit, wordOf]; omega

theorem operandDigits_wordOf {o aa : Int} (h : 0 ≤ aa ∧ aa ≤ 99) :
    operandDigits (wordOf o aa) = aa := by
  simp only [operandDigits, wordOf]; omega

theorem isWord_wordOf {o aa : Int} (ho : 0 ≤ o ∧ o ≤ 9) (h : 0 ≤ aa ∧ aa ≤ 99) :
    isWord (wordOf o aa) = true := by
  simp only [isWord_iff, wordOf]; omega

/-- Decoding a word that is put together from an opcode digit and an operand. -/
theorem decode_wordOf {o aa : Int} (ho : 0 ≤ o ∧ o ≤ 9) (h : 0 ≤ aa ∧ aa ≤ 99) :
    decode (wordOf o aa) = decodeDigits o aa := by
  rw [decode, if_pos (isWord_wordOf ho h), opcodeDigit_wordOf h, operandDigits_wordOf h]

/-- A value outside `0 .. 999` is no instruction word. -/
theorem decode_notAWord {w : Int} (h : w < 0 ∨ 999 < w) : decode w = .notAWord w := by
  rw [decode, if_neg]
  rw [isWord_iff]
  omega

end Sys2Proof
end

