-- ==== Sys2Proof/Laws/Exec.lean ====
section
/-! SUPPORT. All that one instruction can do, said once: `exec_effect` is the inversion that a proof about
every instruction starts from. It holds of ill-formed instructions too, whose operand selects what the
handler of their opcode digit does with it. -/

namespace Sys2Proof.Machine

/-- The opcode digit and the operand that an instruction's cycle latches. -/
def digitsOf : Instr → Int × Int
  | .halt => (0, 0)
  | .haltIllegalOperand aa => (0, aa)
  | .add aa => (1, aa)
  | .subtract aa => (2, aa)
  | .store aa => (3, aa)
  | .reserved4 aa => (4, aa)
  | .load aa => (5, aa)
  | .branch aa => (6, aa)
  | .branchIfZero aa => (7, aa)
  | .branchIfPositive aa => (8, aa)
  | .ioIllegalSelector0 => (9, 0)
  | .input => (9, 1)
  | .output => (9, 2)
  | .ioIllegalSelector3To99 aa => (9, aa)
  | .notAWord w => (opcodeDigit w, operandDigits w)

/-- The state after steps 2 and 3 of the instruction's cycle. -/
def dispatched (i : Instr) (s : State) : State :=
  (s.latch (digitsOf i).1 (digitsOf i).2).advance s.pc

/-- Which fault the handler raises, and when (60_exceptions.md R161, point 3). -/
def HandlerFault (s : State) (k : FaultKind) : Instr → Prop
  | .halt => False
  | .haltIllegalOperand aa => aa ≠ 0 ∧ k = .illegalOperand
  | .add aa => ¬ (0 ≤ aa ∧ aa ≤ 99) ∧ k = .addressFault ∨
      (0 ≤ aa ∧ aa ≤ 99) ∧ ¬ (-999 ≤ s.acc + s.mailbox aa.toNat ∧
        s.acc + s.mailbox aa.toNat ≤ 999) ∧ k = .overflow
  | .subtract aa => ¬ (0 ≤ aa ∧ aa ≤ 99) ∧ k = .addressFault ∨
      (0 ≤ aa ∧ aa ≤ 99) ∧ ¬ (-999 ≤ s.acc - s.mailbox aa.toNat ∧
        s.acc - s.mailbox aa.toNat ≤ 999) ∧ k = .overflow
  | .store aa => aa < 0 ∧ k = .illegalOperand ∨ 99 < aa ∧ k = .addressFault ∨
      (0 ≤ aa ∧ aa ≤ 99) ∧ ¬ (-999 ≤ s.acc ∧ s.acc ≤ 999) ∧ k = .valueFault
  | .reserved4 _ => k = .unimplementedOpcode
  | .load aa => aa < 0 ∧ k = .illegalOperand ∨ 99 < aa ∧ k = .addressFault ∨
      (0 ≤ aa ∧ aa ≤ 99) ∧ ¬ (-999 ≤ s.mailbox aa.toNat ∧ s.mailbox aa.toNat ≤ 999) ∧
        k = .overflow
  | .branch aa => aa < 0 ∧ k = .illegalOperand
  | .branchIfZero _ => False
  | .branchIfPositive _ => False
  | .ioIllegalSelector0 => k = .illegalOperand
  | .input => False
  | .output => False
  | .ioIllegalSelector3To99 aa => aa ≠ 1 ∧ aa ≠ 2 ∧ k = .illegalOperand
  | .notAWord _ => False

/-- The next states an instruction can lead to, each with when it does. -/
inductive Effect (s : State) : Instr → State → Prop
  | notAWord (w : Int) : Effect s (.notAWord w) (s.raise .syntaxFault s.pc)
  | raises (i : Instr) (k : FaultKind) (h : HandlerFault s k i) :
      Effect s i ((dispatched i s).raise k s.pc)
  | halts (i : Instr) (hi : i = .halt ∨ i = .haltIllegalOperand 0) :
      Effect s i { dispatched i s with status := .halted }
  | adds (aa : Int) (ha : 0 ≤ aa ∧ aa ≤ 99)
      (hr : -999 ≤ s.acc + s.mailbox aa.toNat ∧ s.acc + s.mailbox aa.toNat ≤ 999) :
      Effect s (.add aa)
        (overrunCheck s.pc { dispatched (.add aa) s with acc := s.acc + s.mailbox aa.toNat })
  | subtracts (aa : Int) (ha : 0 ≤ aa ∧ aa ≤ 99)
      (hr : -999 ≤ s.acc - s.mailbox aa.toNat ∧ s.acc - s.mailbox aa.toNat ≤ 999) :
      Effect s (.subtract aa)
        (overrunCheck s.pc { dispatched (.subtract aa) s with acc := s.acc - s.mailbox aa.toNat })
  | stores (aa : Int) (ha : 0 ≤ aa ∧ aa ≤ 99) (hr : -999 ≤ s.acc ∧ s.acc ≤ 999) :
      Effect s (.store aa)
        (overrunCheck s.pc
          { dispatched (.store aa) s with mem := Memory.set s.mem aa.toNat s.acc })
  | loads (aa : Int) (ha : 0 ≤ aa ∧ aa ≤ 99)
      (hr : -999 ≤ s.mailbox aa.toNat ∧ s.mailbox aa.toNat ≤ 999) :
      Effect s (.load aa)
        (overrunCheck s.pc { dispatched (.load aa) s with acc := s.mailbox aa.toNat })
  | jumps (i : Instr) (aa : Int) (hi : i = .branch aa ∧ 0 ≤ aa ∨ i = .branchIfZero aa ∧ s.acc = 0 ∨
      i = .branchIfPositive aa ∧ 0 ≤ s.acc) :
      Effect s i (overrunCheck s.pc { dispatched i s with pc := aa })
  | fallsThrough (i : Instr) (aa : Int)
      (hi : i = .branchIfZero aa ∧ s.acc ≠ 0 ∨ i = .branchIfPositive aa ∧ s.acc < 0) :
      Effect s i (overrunCheck s.pc (dispatched i s))
  | accepts (i : Instr) (hi : i = .input ∨ i = .ioIllegalSelector3To99 1) (pre : List Int) (v : Int)
      (post : List Int) (hin : s.input = pre ++ v :: post)
      (hpre : ∀ x ∈ pre, ¬ (-999 ≤ x ∧ x ≤ 999)) (hv : -999 ≤ v ∧ v ≤ 999) :
      Effect s i (overrunCheck s.pc
        { dispatched i s with
          acc := v
          input := post
          inputWait := false
          trace := s.trace ++ pre.map .rejected ++ [.accepted v] })
  | waits (i : Instr) (hi : i = .input ∨ i = .ioIllegalSelector3To99 1)
      (hno : ∀ x ∈ s.input, ¬ (-999 ≤ x ∧ x ≤ 999)) :
      Effect s i
        { dispatched i s with
          input := []
          inputWait := true
          trace := s.trace ++ s.input.map .rejected }
  | outputs (i : Instr) (hi : i = .output ∨ i = .ioIllegalSelector3To99 2) :
      Effect s i
        (overrunCheck s.pc { dispatched i s with trace := s.trace ++ [.output s.acc] })

theorem Effect.ofInput {s : State} {i : Instr} (hi : i = .input ∨ i = .ioIllegalSelector3To99 1) :
    Effect s i (cycle 9 1 ioHandler s) := by
  have hd : digitsOf i = (9, 1) := by rcases hi with rfl | rfl <;> rfl
  have e := cycle_ok (f := ioHandler) (ioHandler_eq ((s.latch 9 1).advance s.pc))
  rcases firstInRange_cases s.input with ⟨pre, v, post, hin, hpre, hv⟩ | hno
  · have := Effect.accepts i hi pre v post hin hpre hv
    rw [dispatched, hd] at this
    have hl := inputLoop_accepts pre post hpre hv ((s.latch 9 1).advance s.pc)
    rw [← hin] at hl
    rw [e]
    show Effect s i (overrunCheck s.pc (inputLoop s.input ((s.latch 9 1).advance s.pc)))
    rw [hl]
    exact this
  · have := Effect.waits i hi hno
    rw [dispatched, hd] at this
    have hl := inputLoop_waits s.input hno ((s.latch 9 1).advance s.pc)
    rw [e]
    have ho : overrunCheck s.pc (inputLoop s.input ((s.latch 9 1).advance s.pc)) =
        inputLoop s.input ((s.latch 9 1).advance s.pc) :=
      overrunCheck_self fun _ hw => by rw [hl] at hw; cases hw
    exact ho.trans hl ▸ this

theorem Effect.ofOutput {s : State} {i : Instr} (hi : i = .output ∨ i = .ioIllegalSelector3To99 2) :
    Effect s i (cycle 9 2 ioHandler s) := by
  have hd : digitsOf i = (9, 2) := by rcases hi with rfl | rfl <;> rfl
  have := Effect.outputs (s := s) i hi
  rw [dispatched, hd] at this
  exact this

theorem Effect.ofHalt {s : State} {i : Instr} (hi : i = .halt ∨ i = .haltIllegalOperand 0) :
    Effect s i (cycle 0 0 haltHandler s) := by
  have hd : digitsOf i = (0, 0) := by rcases hi with rfl | rfl <;> rfl
  have := Effect.halts (s := s) i hi
  rw [dispatched, hd] at this
  rw [cycle_ok ((haltHandler_eq _).trans (if_pos rfl)), overrunCheck_self (fun h => by cases h)]
  exact this

/-- The inversion of `exec`: whatever it answers is one of the effects. -/
theorem exec_effect {i : Instr} {s t : State} (h : exec i s = .next t) : Effect s i t := by
  have hraise : ∀ (o a : Int) (f : Handler) (k : FaultKind), digitsOf i = (o, a) →
      exec i s = .next (cycle o a f s) → f ((s.latch o a).advance s.pc) = .error k →
      HandlerFault s k i → Effect s i t := by
    intro o a f k hd he hf hk
    have := Effect.raises i k hk
    rw [dispatched, hd] at this
    rw [he, cycle_error hf] at h
    exact Host.Outcome.next.inj h ▸ this
  have hok : ∀ (o a : Int) (f : Handler) (u : State), exec i s = .next (cycle o a f s) →
      f ((s.latch o a).advance s.pc) = .ok u → Effect s i (overrunCheck s.pc u) → Effect s i t := by
    intro o a f u he hf hu
    rw [he, cycle_ok hf] at h
    exact Host.Outcome.next.inj h ▸ hu
  cases i with
  | halt => exact Host.Outcome.next.inj h ▸ Effect.ofHalt (.inl rfl)
  | haltIllegalOperand aa =>
    by_cases ha : aa = 0
    · subst ha
      exact Host.Outcome.next.inj h ▸ Effect.ofHalt (.inr rfl)
    · exact hraise 0 aa haltHandler .illegalOperand rfl rfl
        ((haltHandler_eq _).trans (if_neg ha)) ⟨ha, rfl⟩
  | add aa =>
    have e := aluHandler_eq (fun acc m => acc + m) ((s.latch 1 aa).advance s.pc)
    by_cases ha : 0 ≤ aa ∧ aa ≤ 99
    · by_cases hr : -999 ≤ s.acc + s.mailbox aa.toNat ∧ s.acc + s.mailbox aa.toNat ≤ 999
      · exact hok 1 aa addHandler _ rfl (e.trans ((if_pos ha).trans (if_pos hr))) (.adds aa ha hr)
      · exact hraise 1 aa addHandler .overflow rfl rfl (e.trans ((if_pos ha).trans (if_neg hr)))
          (.inr ⟨ha, hr, rfl⟩)
    · exact hraise 1 aa addHandler .addressFault rfl rfl (e.trans (if_neg ha)) (.inl ⟨ha, rfl⟩)
  | subtract aa =>
    have e := aluHandler_eq (fun acc m => acc - m) ((s.latch 2 aa).advance s.pc)
    by_cases ha : 0 ≤ aa ∧ aa ≤ 99
    · by_cases hr : -999 ≤ s.acc - s.mailbox aa.toNat ∧ s.acc - s.mailbox aa.toNat ≤ 999
      · exact hok 2 aa subtractHandler _ rfl (e.trans ((if_pos ha).trans (if_pos hr)))
          (.subtracts aa ha hr)
      · exact hraise 2 aa subtractHandler .overflow rfl rfl
          (e.trans ((if_pos ha).trans (if_neg hr))) (.inr ⟨ha, hr, rfl⟩)
    · exact hraise 2 aa subtractHandler .addressFault rfl rfl (e.trans (if_neg ha))
        (.inl ⟨ha, rfl⟩)
  | store aa =>
    have e := storeHandler_eq ((s.latch 3 aa).advance s.pc)
    by_cases hn : aa < 0
    · exact hraise 3 aa storeHandler .illegalOperand rfl rfl (e.trans (if_pos hn))
        (.inl ⟨hn, rfl⟩)
    · by_cases ha : aa ≤ 99
      · by_cases hr : -999 ≤ s.acc ∧ s.acc ≤ 999
        · exact hok 3 aa storeHandler _ rfl
            (e.trans ((if_neg hn).trans ((if_pos ha).trans (if_pos hr))))
            (.stores aa ⟨Int.not_lt.1 hn, ha⟩ hr)
        · exact hraise 3 aa storeHandler .valueFault rfl rfl
            (e.trans ((if_neg hn).trans ((if_pos ha).trans (if_neg hr))))
            (.inr (.inr ⟨⟨Int.not_lt.1 hn, ha⟩, hr, rfl⟩))
      · exact hraise 3 aa storeHandler .addressFault rfl rfl
          (e.trans ((if_neg hn).trans (if_neg ha))) (.inr (.inl ⟨Int.not_le.1 ha, rfl⟩))
  | reserved4 aa =>
    exact hraise 4 aa (reserved4Handler Config.op4Policy) .unimplementedOpcode rfl rfl
      (reserved4Handler_fault _) rfl
  | load aa =>
    have e := loadHandler_eq ((s.latch 5 aa).advance s.pc)
    by_cases hn : aa < 0
    · exact hraise 5 aa loadHandler .illegalOperand rfl rfl (e.trans (if_pos hn)) (.inl ⟨hn, rfl⟩)
    · by_cases ha : aa ≤ 99
      · by_cases hr : -999 ≤ s.mailbox aa.toNat ∧ s.mailbox aa.toNat ≤ 999
        · exact hok 5 aa loadHandler _ rfl
            (e.trans ((if_neg hn).trans ((if_pos ha).trans (if_pos hr))))
            (.loads aa ⟨Int.not_lt.1 hn, ha⟩ hr)
        · exact hraise 5 aa loadHandler .overflow rfl rfl
            (e.trans ((if_neg hn).trans ((if_pos ha).trans (if_neg hr))))
            (.inr (.inr ⟨⟨Int.not_lt.1 hn, ha⟩, hr, rfl⟩))
      · exact hraise 5 aa loadHandler .addressFault rfl rfl
          (e.trans ((if_neg hn).trans (if_neg ha))) (.inr (.inl ⟨Int.not_le.1 ha, rfl⟩))
  | branch aa =>
    have e := branchHandler_eq ((s.latch 6 aa).advance s.pc)
    by_cases hn : aa < 0
    · exact hraise 6 aa branchHandler .illegalOperand rfl rfl (e.trans (if_pos hn)) ⟨hn, rfl⟩
    · exact hok 6 aa branchHandler _ rfl (e.trans (if_neg hn))
        (.jumps _ aa (.inl ⟨rfl, Int.not_lt.1 hn⟩))
  | branchIfZero aa =>
    have e := branchIfZeroHandler_eq ((s.latch 7 aa).advance s.pc)
    by_cases hz : s.acc = 0
    · exact hok 7 aa branchIfZeroHandler _ rfl (e.trans (congrArg _ (if_pos hz)))
        (.jumps _ aa (.inr (.inl ⟨rfl, hz⟩)))
    · exact hok 7 aa branchIfZeroHandler _ rfl (e.trans (congrArg _ (if_neg hz)))
        (.fallsThrough _ aa (.inl ⟨rfl, hz⟩))
  | branchIfPositive aa =>
    have e := branchIfPositiveHandler_eq ((s.latch 8 aa).advance s.pc)
    by_cases hz : 0 ≤ s.acc
    · exact hok 8 aa branchIfPositiveHandler _ rfl (e.trans (congrArg _ (if_pos hz)))
        (.jumps _ aa (.inr (.inr ⟨rfl, hz⟩)))
    · exact hok 8 aa branchIfPositiveHandler _ rfl (e.trans (congrArg _ (if_neg hz)))
        (.fallsThrough _ aa (.inr ⟨rfl, Int.not_le.1 hz⟩))
  | ioIllegalSelector0 =>
    exact hraise 9 0 ioHandler .illegalOperand rfl rfl (ioHandler_eq _) rfl
  | input => exact Host.Outcome.next.inj h ▸ Effect.ofInput (.inl rfl)
  | output => exact Host.Outcome.next.inj h ▸ Effect.ofOutput (.inl rfl)
  | ioIllegalSelector3To99 aa =>
    by_cases h1 : aa = 1
    · subst h1
      exact Host.Outcome.next.inj h ▸ Effect.ofInput (.inr rfl)
    · by_cases h2 : aa = 2
      · subst h2
        exact Host.Outcome.next.inj h ▸ Effect.ofOutput (.inr rfl)
      · exact hraise 9 aa ioHandler .illegalOperand rfl rfl
          ((ioHandler_eq _).trans ((if_neg h1).trans (if_neg h2))) ⟨h1, h2, rfl⟩
  | notAWord w => exact Host.Outcome.next.inj h ▸ Effect.notAWord w

end Sys2Proof.Machine
end

