-- ==== Sys2Proof/Laws/Invariant.lean ====
section
/-! SUPPORT. A check that a concrete state meets the invariant, and what the invariant gives at the start
of a cycle. -/

namespace Sys2Proof.Machine

/-- A list whose entries are in range reads in range. -/
theorem Memory.get_range {m : Memory} (h : m.all (fun c => inRange c.2) = true) (a : Nat) :
    -999 ≤ Memory.get m a ∧ Memory.get m a ≤ 999 := by
  induction m with
  | nil => simp [Memory.get]
  | cons c m ih =>
    rw [List.all_cons, Bool.and_eq_true, inRange_iff] at h
    simp only [Memory.get]
    split
    · exact h.1
    · exact ih h.2

/-- `IoEvent.Legal`, computed. -/
def IoEvent.legalCheck : IoEvent → Bool
  | .accepted v => inRange v
  | .rejected v => !inRange v
  | .output v => inRange v

theorem IoEvent.legal_of_check {e : IoEvent} (h : e.legalCheck = true) : e.Legal := by
  cases e with
  | accepted v => exact inRange_iff.mp h
  | output v => exact inRange_iff.mp h
  | rejected v =>
    simp only [legalCheck, Bool.not_eq_true', ← Bool.not_eq_true, inRange_iff] at h
    simp only [Legal]
    omega

/-- `State.Inv`, computed, for a concrete state. -/
def State.invCheck (s : State) : Bool :=
  Memory.wf s.mem && s.mem.all (fun c => inRange c.2) && inRange s.acc && between 0 9 s.ir &&
  between 0 99 s.ar && between 0 100 s.pc && between 0 99 s.faddr &&
  (decide (s.status = .running → s.inputWait = false → s.pc ≤ 99)) &&
  (decide (s.fkind = none ↔ s.status ≠ .faulted)) &&
  (decide (s.inputWait = true → s.status = .running ∧ s.ir = 9 ∧ s.ar = 1 ∧ 1 ≤ s.pc)) &&
  (decide (s.status = .halted → s.ir = 0 ∧ s.ar = 0)) && s.trace.all IoEvent.legalCheck

theorem State.inv_of_check {s : State} (h : s.invCheck = true) : s.Inv := by
  simp only [invCheck, Bool.and_eq_true, decide_eq_true_eq, inRange_iff, between_iff] at h
  obtain ⟨⟨⟨⟨⟨⟨⟨⟨⟨⟨⟨h1, h2⟩, h3⟩, h4⟩, h5⟩, h6⟩, h7⟩, h8⟩, h9⟩, h10⟩, h11⟩, h12⟩ := h
  exact ⟨h1, Memory.get_range h2, h3, h4, h5, h6, h8, h7, h9, h10, h11,
    fun e he => IoEvent.legal_of_check (List.all_eq_true.mp h12 e he)⟩

end Sys2Proof.Machine
end

