-- ==== Sys2Proof/Laws/PerInstr.lean ====
section
/-! SUPPORT. Families of facts about every instruction as syntax, one lemma per constructor. -/

namespace Sys2Proof.Laws

/-! ### `RowCovers`: the encoding of a well-formed instruction lies in its row of the opcode table -/

/-- 30_encoding.md R65, R71. -/
def RowCovers.Statement (i : Instr) : Prop :=
  i.wf = true → i.rowRange.1 ≤ encode i ∧ encode i ≤ i.rowRange.2

theorem RowCovers.halt : RowCovers.Statement .halt := by
  simp [RowCovers.Statement, Instr.wf, Instr.rowRange, encode, wordOf]

theorem RowCovers.haltIllegalOperand (aa : Int) : RowCovers.Statement (.haltIllegalOperand aa) := by
  simp [RowCovers.Statement, Instr.wf, Instr.rowRange, encode, wordOf]

theorem RowCovers.add (aa : Int) : RowCovers.Statement (.add aa) := by
  simp only [RowCovers.Statement, Instr.wf, Instr.rowRange, encode, wordOf, isOperand_iff]; omega

theorem RowCovers.subtract (aa : Int) : RowCovers.Statement (.subtract aa) := by
  simp only [RowCovers.Statement, Instr.wf, Instr.rowRange, encode, wordOf, isOperand_iff]; omega

theorem RowCovers.store (aa : Int) : RowCovers.Statement (.store aa) := by
  simp only [RowCovers.Statement, Instr.wf, Instr.rowRange, encode, wordOf, isOperand_iff]; omega

theorem RowCovers.reserved4 (aa : Int) : RowCovers.Statement (.reserved4 aa) := by
  simp only [RowCovers.Statement, Instr.wf, Instr.rowRange, encode, wordOf, isOperand_iff]; omega

theorem RowCovers.load (aa : Int) : RowCovers.Statement (.load aa) := by
  simp only [RowCovers.Statement, Instr.wf, Instr.rowRange, encode, wordOf, isOperand_iff]; omega

theorem RowCovers.branch (aa : Int) : RowCovers.Statement (.branch aa) := by
  simp only [RowCovers.Statement, Instr.wf, Instr.rowRange, encode, wordOf, isOperand_iff]; omega

theorem RowCovers.branchIfZero (aa : Int) : RowCovers.Statement (.branchIfZero aa) := by
  simp only [RowCovers.Statement, Instr.wf, Instr.rowRange, encode, wordOf, isOperand_iff]; omega

theorem RowCovers.branchIfPositive (aa : Int) : RowCovers.Statement (.branchIfPositive aa) := by
  simp only [RowCovers.Statement, Instr.wf, Instr.rowRange, encode, wordOf, isOperand_iff]; omega

theorem RowCovers.ioIllegalSelector0 : RowCovers.Statement .ioIllegalSelector0 := by
  simp [RowCovers.Statement, Instr.wf, Instr.rowRange, encode, wordOf]

theorem RowCovers.input : RowCovers.Statement .input := by
  simp [RowCovers.Statement, Instr.wf, Instr.rowRange, encode, wordOf]

theorem RowCovers.output : RowCovers.Statement .output := by
  simp [RowCovers.Statement, Instr.wf, Instr.rowRange, encode, wordOf]

theorem RowCovers.ioIllegalSelector3To99 (aa : Int) :
    RowCovers.Statement (.ioIllegalSelector3To99 aa) := by
  simp only [RowCovers.Statement, Instr.wf, Instr.rowRange, encode, wordOf, between_iff]; omega

theorem RowCovers.notAWord (w : Int) : RowCovers.Statement (.notAWord w) := by
  simp [RowCovers.Statement, Instr.wf, Instr.rowRange, encode]

end Sys2Proof.Laws
end

