-- ==== Sys2Proof/Laws/Step.lean ====
section
/-! SUPPORT. What one step can do, by the state of the controller. -/

namespace Sys2Proof.Machine

theorem step_halted {s : State} (h : s.status = .halted) : step s = .next s := by
  simp only [step, controller, h]

theorem step_faulted {s : State} (h : s.status = .faulted) : step s = .next s := by
  simp only [step, controller, h]

theorem step_waiting {s : State} (h : s.status = .running) (hw : s.inputWait = true) :
    step s = .next (resumeInput s) := by
  simp only [step, controller, h, hw, if_true]

/-- A cycle whose fetch finds a mailbox. -/
theorem step_fetch {s : State} (h : s.status = .running) (hw : s.inputWait = false)
    (hp : 0 ≤ s.pc ∧ s.pc ≤ 99) : step s = exec (decode (s.mailbox s.pc.toNat)) s := by
  simp [step, controller, h, hw, runCycle, memRead_eq, hp]

/-- A cycle whose fetch finds none. -/
theorem step_fetchFault {s : State} (h : s.status = .running) (hw : s.inputWait = false)
    (hp : ¬ (0 ≤ s.pc ∧ s.pc ≤ 99)) : step s = .next (s.raise .addressFault s.pc) := by
  simp only [step, controller, h, hw, runCycle, memRead_eq, if_neg hp]
  rfl

/-! ### Several steps, as the host runs them -/

theorem core_run_zero (s : State) : core.run 0 s = .next s := rfl

/-- One step of `core.run`, in the model's own names. -/
theorem core_run_next {s t : State} (n : Nat) (h : step s = .next t) :
    core.run (n + 1) s = core.run n t := by
  have h' : core.step s = .next t := h
  simp only [Host.Core.run, h']

end Sys2Proof.Machine
end

