-- ==== Sys2Proof/Laws/Run.lean ====
section
/-! SUPPORT. What one move of a run can do. -/

namespace Sys2Proof.Machine

/-- Every move the host can make, and what it leaves. -/
theorem Run.host_cases {m : HostMove} {r t : Run} (h : r.host m = some t) :
    (m = .reset ∧ t = Run.start) ∨
    (∃ tokens, m = .boot tokens ∧ r.phase = .fresh ∧
      t = { phase := .booted, state := boot tokens r.state }) ∨
    (∃ vs, m = .supply vs ∧ r.phase = .booted ∧ t = { r with state := supplyInput vs r.state }) ∨
    ((m = .acceptOutput ∨ m = .readStatus) ∧ t = r) := by
  obtain ⟨phase, state⟩ := r
  cases m <;> cases phase <;> simp_all [Run.host, Run.start, externalReset]

/-- The core moves only once Boot has ended, and then by one step. -/
theorem Run.cycle_cases {r t : Run} (h : r.cycle = some t) :
    r.phase = .booted ∧ t.phase = .booted ∧ step r.state = .next t.state := by
  obtain ⟨phase, state⟩ := r
  cases phase with
  | fresh => simp [Run.cycle] at h
  | booted =>
    simp only [Run.cycle] at h
    split at h
    · rename_i u hu
      obtain rfl := Option.some.inj h
      exact ⟨rfl, rfl, hu⟩
    · simp at h
    · simp at h

theorem Run.cycle_booted {s t : State} (h : step s = .next t) :
    Run.cycle { phase := .booted, state := s } = some { phase := .booted, state := t } := by
  simp only [Run.cycle, h]

theorem Run.play_cons {m : RunMove} {ms : List RunMove} {r u : Run} :
    Run.play (m :: ms) r = some u ↔ ∃ t, r.move m = some t ∧ Run.play ms t = some u := by
  simp only [Run.play]
  cases r.move m <;> simp

end Sys2Proof.Machine
end

