-- ==== Sys2Proof/Tests/Slice0.lean ====
section
/-! SUPPORT. Tests: the WellFormed smoke, words written out from the opcode map, one step of every
instruction with the values of 95_test_vectors.md (the vector's id stands beside each), and a witness for
the hypotheses of every statement. -/

namespace Sys2Proof.Tests

open Sys2Proof.Machine

/-! ### Helpers -/

/-- A running core at `pc` with `acc`, the listed mailboxes, and the integers the port will supply. -/
def at_ (pc acc : Int) (mem : Memory) (ins : List Int := []) : State :=
  { State.reset with pc := pc, acc := acc, mem := mem, input := ins }

/-- A core in the input wait of an INPUT at `pc - 1`. -/
def waiting (pc acc : Int) (ins : List Int) : State :=
  { State.reset with pc := pc, acc := acc, ir := 9, ar := 1, inputWait := true, input := ins }

/-- What one step leaves, where it answers a next state. -/
def after (s : State) : Option State :=
  match step s with
  | .next t => some t
  | .fault _ => none
  | .refused _ => none

/-- `PC`, `ACC`, `IR`, `AR`. -/
def registers (s : State) : Int × Int × Int × Int := (s.pc, s.acc, s.ir, s.ar)

/-- `STATE`, `FKIND`, `FADDR`, `PC`. -/
def ending (s : State) : Status × Option FaultKind × Int × Int := (s.status, s.fkind, s.faddr, s.pc)

/-- What one token sequence and one input leave after `n` steps. -/
def ran (n : Nat) (tokens ins : List Int) : Option State :=
  match core.run n (launch tokens ins) with
  | .next t => some t
  | .fault _ => none
  | .refused _ => none

/-! ### WellFormed: every check refuses a term below and one above its range -/

theorem test_wf_refuses_halt_operand :
    (Instr.haltIllegalOperand 0).wf = false ∧ (Instr.haltIllegalOperand 100).wf = false := by decide
theorem test_wf_refuses_add :
    (Instr.add (-1)).wf = false ∧ (Instr.add 100).wf = false := by decide
theorem test_wf_refuses_subtract :
    (Instr.subtract (-1)).wf = false ∧ (Instr.subtract 100).wf = false := by decide
theorem test_wf_refuses_store :
    (Instr.store (-1)).wf = false ∧ (Instr.store 100).wf = false := by decide
theorem test_wf_refuses_reserved4 :
    (Instr.reserved4 (-1)).wf = false ∧ (Instr.reserved4 100).wf = false := by decide
theorem test_wf_refuses_load :
    (Instr.load (-1)).wf = false ∧ (Instr.load 100).wf = false := by decide
theorem test_wf_refuses_branch :
    (Instr.branch (-1)).wf = false ∧ (Instr.branch 100).wf = false := by decide
theorem test_wf_refuses_branchIfZero :
    (Instr.branchIfZero (-1)).wf = false ∧ (Instr.branchIfZero 100).wf = false := by decide
theorem test_wf_refuses_branchIfPositive :
    (Instr.branchIfPositive (-1)).wf = false ∧ (Instr.branchIfPositive 100).wf = false := by decide
theorem test_wf_refuses_selector :
    (Instr.ioIllegalSelector3To99 2).wf = false ∧ (Instr.ioIllegalSelector3To99 100).wf = false := by
  decide
theorem test_wf_refuses_notAWord :
    (Instr.notAWord (-1000)).wf = false ∧ (Instr.notAWord 0).wf = false := by decide

/-! ### Words written out digit by digit from the opcode map (30_encoding.md R63) -/

/-- V-DEC-1, V-DEC-2, V-DEC-3 -/
theorem test_decode_halt_words :
    decode 000 = .halt ∧ decode 007 = .haltIllegalOperand 7 ∧ decode 099 = .haltIllegalOperand 99 := by
  decide
/-- V-DEC-4 and the last word of the row -/
theorem test_decode_add_words : decode 100 = .add 0 ∧ decode 199 = .add 99 := by decide
theorem test_decode_subtract_words : decode 200 = .subtract 0 ∧ decode 299 = .subtract 99 := by decide
/-- V-DEC-5 -/
theorem test_decode_store_words : decode 300 = .store 0 ∧ decode 399 = .store 99 := by decide
/-- V-DEC-6 -/
theorem test_decode_reserved4_words : decode 450 = .reserved4 50 ∧ decode 499 = .reserved4 99 := by
  decide
/-- V-DEC-7 -/
theorem test_decode_load_words : decode 509 = .load 9 ∧ decode 590 = .load 90 := by decide
theorem test_decode_branch_words :
    decode 642 = .branch 42 ∧ decode 713 = .branchIfZero 13 ∧ decode 899 = .branchIfPositive 99 := by
  decide
/-- V-DEC-8, V-DEC-9 -/
theorem test_decode_io_words :
    decode 900 = .ioIllegalSelector0 ∧ decode 901 = .input ∧ decode 902 = .output ∧
    decode 903 = .ioIllegalSelector3To99 3 ∧ decode 999 = .ioIllegalSelector3To99 99 := by decide
/-- V-DEC-10, V-DEC-11 -/
theorem test_decode_negative_values :
    decode (-1) = .notAWord (-1) ∧ decode (-999) = .notAWord (-999) := by decide

/-- The host's bit patterns: plain numbers, two's complement in 11 bits or more, none out of range. -/
theorem test_decodeTableWord_patterns :
    decodeTableWord 16 901 = some .input ∧ decodeTableWord 16 65531 = some (.notAWord (-5)) ∧
    decodeTableWord 8 120 = some (.add 20) ∧ decodeTableWord 16 1000 = none := by decide

theorem test_withFetchWord_runs_the_word :
    (after (State.reset.withFetchWord 16 902)).map (fun t => t.trace) = some [.output 0] ∧
    (after (State.reset.withFetchWord 16 65531)).map ending =
      some (.faulted, some .syntaxFault, 0, 0) := by decide

/-! ### One step of every instruction (95_test_vectors.md) -/

/-- V-HALT-1, V-HALT-2 -/
theorem test_halt :
    (after (at_ 3 5 [])).map ending = some (.halted, none, 0, 4) ∧
    (after (at_ 99 5 [])).map ending = some (.halted, none, 0, 100) := by decide
/-- V-HALT-4 -/
theorem test_halt_operand_registers :
    (after (at_ 3 5 [(3, 1)])).map registers = some (4, 5, 0, 1) := by decide
/-- V-HALT-6 -/
theorem test_halt_operand_at_99 :
    (after (at_ 99 5 [(99, 50)])).map ending = some (.faulted, some .illegalOperand, 99, 100) := by decide
/-- V-RES4-1, V-RES4-2 -/
theorem test_reserved4 :
    (after (at_ 7 5 [(7, 450)])).map registers = some (8, 5, 4, 50) ∧
    (after (at_ 99 5 [(99, 400)])).map ending =
      some (.faulted, some .unimplementedOpcode, 99, 100) := by decide
/-- V-RES4-3, V-RES4-4: the other policy -/
theorem test_reserved4_nop :
    ending (cycle 4 50 (reserved4Handler .nop) (at_ 7 5 [(7, 450)])) = (.running, none, 0, 8) ∧
    ending (cycle 4 99 (reserved4Handler .nop) (at_ 99 5 [(99, 499)])) =
      (.faulted, some .programOverrun, 99, 100) := by decide
/-- V-ADD-1, V-ADD-10 -/
theorem test_add :
    (after (at_ 4 500 [(4, 120), (20, 499)])).map registers = some (5, 999, 1, 20) ∧
    (after (at_ 5 7 [(5, 105)])).map registers = some (6, 112, 1, 5) := by decide
/-- V-ADD-4, V-ADD-11 -/
theorem test_add_faults :
    (after (at_ 4 (-999) [(4, 120), (20, -1)])).map ending = some (.faulted, some .overflow, 4, 5) ∧
    (after (at_ 99 1 [(50, 2), (99, 150)])).map registers = some (100, 3, 1, 50) := by decide
/-- V-SUB-3, V-SUB-11 -/
theorem test_subtract :
    (after (at_ 2 0 [(2, 210), (10, -999)])).map registers = some (3, 999, 2, 10) ∧
    (after (at_ 5 300 [(5, 205)])).map registers = some (6, 95, 2, 5) := by decide
/-- V-SUB-6 -/
theorem test_subtract_overflows :
    (after (at_ 2 (-1) [(2, 210), (10, 999)])).map (fun t => (ending t, t.acc)) =
      some ((.faulted, some .overflow, 2, 3), -1) := by decide
/-- V-STO-3, V-STO-5 -/
theorem test_store :
    (after (at_ 5 (-42) [(5, 305)])).map (fun t => (registers t, t.mem)) =
      some ((6, -42, 3, 5), [(5, -42)]) ∧
    (after (at_ 1 (-999) [(1, 310), (10, 5)])).map (fun t => t.mem) =
      some [(1, 310), (10, -999)] := by decide
/-- V-STO-6, and a store of 0, which leaves the list -/
theorem test_store_edges :
    (after (at_ 99 9 [(99, 350)])).map (fun t => (ending t, t.mem)) =
      some ((.faulted, some .programOverrun, 99, 100), [(50, 9), (99, 350)]) ∧
    (after (at_ 1 0 [(1, 310), (10, 5)])).map (fun t => t.mem) = some [(1, 310)] := by decide
/-- V-LOA-2, V-LOA-4 -/
theorem test_load :
    (after (at_ 0 1 [(0, 509), (9, -999)])).map registers = some (1, -999, 5, 9) ∧
    (after (at_ 0 55 [(0, 577)])).map registers = some (1, 0, 5, 77) := by decide
/-- V-LOA-5 -/
theorem test_load_at_99 :
    (after (at_ 99 0 [(98, 12), (99, 598)])).map (fun t => (ending t, t.acc)) =
      some ((.faulted, some .programOverrun, 99, 100), 12) := by decide
/-- V-BRA-1, V-BRA-5 -/
theorem test_branch :
    (after (at_ 5 9 [(5, 642)])).map registers = some (42, 9, 6, 42) ∧
    (after (at_ 99 9 [(99, 699)])).map ending = some (.running, none, 0, 99) := by decide
/-- V-BRZ-1, V-BRZ-3 -/
theorem test_branchIfZero :
    (after (at_ 3 0 [(3, 710)])).map registers = some (10, 0, 7, 10) ∧
    (after (at_ 3 (-1) [(3, 710)])).map registers = some (4, -1, 7, 10) := by decide
/-- V-BRZ-4, V-BRZ-5 -/
theorem test_branchIfZero_at_99 :
    (after (at_ 99 0 [(99, 750)])).map ending = some (.running, none, 0, 50) ∧
    (after (at_ 99 1 [(99, 750)])).map ending =
      some (.faulted, some .programOverrun, 99, 100) := by decide
/-- V-BRP-1, V-BRP-2 -/
theorem test_branchIfPositive :
    (after (at_ 3 (-1) [(3, 801)])).map registers = some (4, -1, 8, 1) ∧
    (after (at_ 3 0 [(3, 801)])).map registers = some (1, 0, 8, 1) := by decide
/-- V-BRP-5, V-BRP-6 -/
theorem test_branchIfPositive_at_99 :
    (after (at_ 99 (-1) [(99, 850)])).map ending =
      some (.faulted, some .programOverrun, 99, 100) ∧
    (after (at_ 99 0 [(99, 850)])).map ending = some (.running, none, 0, 50) := by decide
/-- V-INP-6 -/
theorem test_input_rejects_and_accepts :
    (after (at_ 0 9 [(0, 901)] [12345, -99999, 1000, -7, 8])).map
      (fun t => (registers t, t.trace, t.input)) =
      some ((1, -7, 9, 1),
        [.rejected 12345, .rejected (-99999), .rejected 1000, .accepted (-7)], [8]) := by decide
/-- V-INP-8, V-INP-9 -/
theorem test_input_waits_and_overruns :
    (after (at_ 0 9 [(0, 901)] [1000])).map (fun t => (registers t, t.inputWait, t.trace)) =
      some ((1, 9, 9, 1), true, [.rejected 1000]) ∧
    (after (at_ 99 7 [(99, 901)] [3])).map (fun t => (ending t, t.acc, t.trace)) =
      some ((.faulted, some .programOverrun, 99, 100), 3, [.accepted 3]) := by decide
/-- V-OUT-2, V-OUT-4 -/
theorem test_output :
    (after (at_ 2 (-45) [(2, 902)])).map (fun t => (registers t, t.trace)) =
      some ((3, -45, 9, 2), [.output (-45)]) ∧
    (after (at_ 99 7 [(99, 902)])).map (fun t => (ending t, t.trace)) =
      some ((.faulted, some .programOverrun, 99, 100), [.output 7]) := by decide
/-- V-IO-1, V-IO-4 -/
theorem test_io_selector_0 :
    (after (at_ 2 7 [(2, 900)])).map registers = some (3, 7, 9, 0) ∧
    (after (at_ 99 7 [(99, 900)])).map ending =
      some (.faulted, some .illegalOperand, 99, 100) := by decide
/-- V-IO-2, V-IO-3 -/
theorem test_io_selector_3_99 :
    (after (at_ 2 7 [(2, 903)])).map ending = some (.faulted, some .illegalOperand, 2, 3) ∧
    (after (at_ 2 7 [(2, 999)])).map registers = some (3, 7, 9, 99) := by decide
/-- V-SYN-1 -/
theorem test_negative_value_keeps_registers :
    (after { at_ 2 4 [(2, -5)] with ir := 3, ar := 2 }).map (fun t => (registers t, ending t)) =
      some ((2, 4, 3, 2), (.faulted, some .syntaxFault, 2, 2)) := by decide

/-- V-BOOT-2, V-BOOT-3 -/
theorem test_boot_rejects :
    (ran 1 [901, 1000, 0] []).map ending = some (.faulted, some .malformedProgram, 1, 0) ∧
    (ran 1 [-1] []).map ending = some (.faulted, some .malformedProgram, 0, 0) := by
  constructor <;> rfl
/-- R185: no second Boot, neither as a move of the host nor on a core that has left its reset state. -/
theorem test_no_reload :
    Run.play [.host (.boot [901]), .cycle, .host (.boot [0])] Run.start = none ∧
    boot [5] { at_ 3 5 [] with status := .halted } = { at_ 3 5 [] with status := .halted } := by decide
/-- V-BOOT-4 -/
theorem test_boot_drops_token_100 :
    (ran 1 (List.replicate 100 0 ++ [5000]) []).map ending = some (.halted, none, 0, 1) := by decide

/-! ### Witnesses: for each statement with hypotheses, a state and operands that meet all of them, for each
clause and at the boundary of its range. `witness_X` belongs to `Obligations.X`. -/

/-- The start of a cycle, for a concrete state. -/
theorem atCycleStart_of {s : State}
    (h : s.status = .running ∧ s.inputWait = false ∧ 0 ≤ s.pc ∧ s.pc ≤ 99) : s.AtCycleStart := h

/-- The tokens of a list that passes the range check are valid. -/
theorem validTokens_of {ts : List Int} (h : ts.all (between 0 999) = true) (k : Nat) (t : Int)
    (_ : k < 100) (hk : ts[k]? = some t) : ValidToken t :=
  between_iff.mp (List.all_eq_true.mp h t (List.mem_of_getElem? hk))

theorem witness_ResetValuesAreThoseOfTheTable :
    (∀ (k : Nat) (t : Int), k < 100 → ([0, 999] : List Int)[k]? = some t → ValidToken t) ∧
    ([0, 999] : List Int)[1]? = some 999 :=
  ⟨validTokens_of (by decide), by decide⟩

theorem witness_BootLoadsTokensOrRejectsTheFirstBadOne :
    (∀ (k : Nat) (t : Int), k < 100 → ([0, 999] : List Int)[k]? = some t → ValidToken t) ∧
    (([901, 1000] : List Int)[1]? = some 1000 ∧ ¬ ValidToken 1000 ∧
      ∀ (j : Nat) (u : Int), j < 1 → ([901, 1000] : List Int)[j]? = some u → ValidToken u) ∧
    (([-1] : List Int)[0]? = some (-1) ∧ ¬ ValidToken (-1) ∧
      ∀ (j : Nat) (u : Int), j < 0 → ([-1] : List Int)[j]? = some u → ValidToken u) := by
  refine ⟨validTokens_of (by decide), ⟨by decide, by simp [ValidToken], fun j u hj h => ?_⟩,
    by decide, by simp [ValidToken], fun j u hj => absurd hj (by omega)⟩
  obtain rfl : j = 0 := by omega
  obtain rfl : 901 = u := by simpa using h
  simp [ValidToken]

/-- At the two ends of memory. -/
theorem witness_StepKeepsTheInvariant :
    (at_ 0 (-999) [(0, 999)]).Inv ∧ (at_ 99 999 [(99, -999)]).Inv ∧ (waiting 100 0 [5]).Inv :=
  ⟨State.inv_of_check (by decide), State.inv_of_check (by decide), State.inv_of_check (by decide)⟩

theorem witness_DecoderSplitsDecimalDigits :
    ((0 : Int) ≤ 999 ∧ (999 : Int) ≤ 999) ∧ (0 : Int) ≤ 9 ∧ (9 : Int) ≤ 9 ∧ (0 : Int) ≤ 99 ∧
    (99 : Int) ≤ 99 := by decide

theorem witness_DecodeEncodeRoundTrip :
    ∀ i ∈ ([.halt, .haltIllegalOperand 1, .haltIllegalOperand 99, .add 0, .add 99, .subtract 0,
      .subtract 99, .store 0, .store 99, .reserved4 0, .reserved4 99, .load 0, .load 99, .branch 0,
      .branch 99, .branchIfZero 0, .branchIfZero 99, .branchIfPositive 0, .branchIfPositive 99,
      .ioIllegalSelector0, .input, .output, .ioIllegalSelector3To99 3, .ioIllegalSelector3To99 99,
      .notAWord (-999), .notAWord (-1)] : List Instr), i.wf = true := by decide

theorem witness_EncodeDecodeRoundTrip : InRange (-999) ∧ InRange 0 ∧ InRange 999 := by
  simp [InRange]

theorem witness_EveryMailboxValueIsClassified :
    (∀ w ∈ ([-999, -1, 0, 1, 99, 100, 199, 200, 299, 300, 399, 400, 499, 500, 599, 600, 699, 700, 799,
      800, 899, 900, 901, 902, 903, 999] : List Int), InRange w) ∧
    ((at_ 99 0 []).AtCycleStart ∧ (at_ 99 0 []).fetchedWord = 0) ∧
    ((at_ 99 0 [(99, -1)]).AtCycleStart ∧
      (decode (at_ 99 0 [(99, -1)]).fetchedWord).wordClass = .notAWord) ∧
    ((at_ 0 0 [(0, 1)]).AtCycleStart ∧
      (decode (at_ 0 0 [(0, 1)]).fetchedWord).wordClass = .illegalOperand) ∧
    ((at_ 0 0 [(0, 499)]).AtCycleStart ∧
      (decode (at_ 0 0 [(0, 499)]).fetchedWord).wordClass = .reserved) :=
  ⟨by simp [InRange], ⟨atCycleStart_of (by decide), by decide⟩,
    ⟨atCycleStart_of (by decide), by decide⟩, ⟨atCycleStart_of (by decide), by decide⟩,
    ⟨atCycleStart_of (by decide), by decide⟩⟩

theorem witness_StepRunsTheFetchedInstruction :
    (at_ 0 0 []).AtCycleStart ∧ (at_ 99 0 []).AtCycleStart :=
  ⟨atCycleStart_of (by decide), atCycleStart_of (by decide)⟩

theorem witness_CyclesRunExactlyInRunning :
    ({ State.reset with status := .halted } : State).status = .halted ∧
    ({ State.reset with status := .faulted } : State).status = .faulted ∧
    (at_ 0 0 []).status = .running ∧ (at_ 0 0 []).inputWait = false ∧ 0 ≤ (at_ 0 0 []).pc ∧
    (at_ 99 0 []).pc ≤ 99 ∧ (at_ (-1) 0 []).pc < 0 ∧ 99 < (at_ 100 0 []).pc ∧
    (at_ 100 0 []).status = .running ∧ (at_ 100 0 []).inputWait = false := by decide

theorem witness_FetchFaultReportsThePcAndIsUnreachable :
    (memRead (at_ 99 0 [(99, 902)]).pc (at_ 99 0 [(99, 902)]) = .ok 902 ∧
      (at_ 99 0 [(99, 902)]).status = .running ∧ (at_ 99 0 [(99, 902)]).inputWait = false) ∧
    ((at_ 100 0 []).status = .running ∧ (at_ 100 0 []).inputWait = false ∧ 99 < (at_ 100 0 []).pc) ∧
    (at_ (-1) 0 []).pc < 0 ∧ (at_ 99 0 []).Inv ∧ (at_ 99 0 []).inputWait = false :=
  ⟨⟨rfl, by decide⟩, by decide, by decide, State.inv_of_check (by decide), by decide⟩

theorem witness_NonWordRaisesSyntaxFault :
    (at_ 99 0 [(99, -1)]).AtCycleStart ∧ (at_ 99 0 [(99, -1)]).fetchedWord < 0 ∧
    (at_ 0 0 [(0, 1000)]).AtCycleStart ∧ 999 < (at_ 0 0 [(0, 1000)]).fetchedWord :=
  ⟨atCycleStart_of (by decide), by decide, atCycleStart_of (by decide), by decide⟩

theorem witness_EveryCycleLatchesTheDecodedDigits :
    ((at_ 99 0 [(99, 999)]).AtCycleStart ∧ (at_ 99 0 [(99, 999)]).fetchedWord = 999) ∧
    ((at_ 0 0 []).AtCycleStart ∧ (at_ 0 0 []).fetchedWord = 0) ∧
    ((at_ 0 0 [(0, -1)]).AtCycleStart ∧ (at_ 0 0 [(0, -1)]).fetchedWord = -1) :=
  ⟨⟨atCycleStart_of (by decide), by decide⟩, ⟨atCycleStart_of (by decide), by decide⟩,
    ⟨atCycleStart_of (by decide), by decide⟩⟩

theorem witness_ProgramCounterSummary :
    (at_ 99 0 []).AtCycleStart ∧ (Instr.branchIfZero 99).wf = true ∧
    (∃ t, exec (.branchIfZero 99) (at_ 99 0 []) = .next t ∧ t.status ≠ .faulted) ∧
    (∃ t, exec (.branchIfPositive 0) (at_ 98 (-1) []) = .next t ∧ t.status ≠ .faulted) ∧
    (∃ t, exec .halt (at_ 99 0 []) = .next t ∧ t.status ≠ .faulted) ∧
    ∃ t, exec (.add 99) (at_ 98 0 []) = .next t ∧ t.status = .running ∧ t.inputWait = false :=
  ⟨atCycleStart_of (by decide), by decide, ⟨_, rfl, by decide⟩, ⟨_, rfl, by decide⟩,
    ⟨_, rfl, by decide⟩, _, rfl, by decide, by decide⟩

theorem witness_OverrunExactlyAfterTheLastMailbox :
    (at_ 99 0 []).Inv ∧ (at_ 99 0 []).AtCycleStart ∧ (Instr.store 99).wf = true ∧
    (∃ t, exec (.store 99) (at_ 99 0 []) = .next t ∧ t.fkind = some .programOverrun) ∧
    (at_ 98 0 []).Inv ∧ (at_ 98 0 []).AtCycleStart :=
  ⟨State.inv_of_check (by decide), atCycleStart_of (by decide), by decide, ⟨_, rfl, by decide⟩,
    State.inv_of_check (by decide), atCycleStart_of (by decide)⟩

theorem witness_StateMachineTransitions :
    (∃ t, (at_ 99 0 []).Inv ∧ step (at_ 99 0 []) = .next t ∧ (at_ 99 0 []).status = .running) ∧
    ∃ t, ({ State.reset with status := .halted } : State).Inv ∧
      step { State.reset with status := .halted } = .next t :=
  ⟨⟨_, State.inv_of_check (by decide), rfl, by decide⟩, _, State.inv_of_check (by decide), rfl⟩

theorem witness_TerminalStatesAreFinal :
    ({ State.reset with status := .halted } : State).Terminal ∧
    ({ State.reset with status := .faulted } : State).Terminal := ⟨.inl rfl, .inr rfl⟩

theorem witness_FaultEntryLeavesTheTabledState :
    (boot [1000] State.reset).status = .faulted ∧
    (boot (List.replicate 99 0 ++ [-1]) State.reset).status = .faulted ∧
    ((at_ 100 0 []).status = .running ∧ (at_ 100 0 []).inputWait = false ∧ 99 < (at_ 100 0 []).pc) ∧
    (∃ t, (at_ 99 0 [(99, -1)]).Inv ∧ (at_ 99 0 [(99, -1)]).AtCycleStart ∧
      step (at_ 99 0 [(99, -1)]) = .next t ∧ t.status = .faulted ∧ t.fkind = some .syntaxFault) ∧
    (∃ t, (at_ 99 0 [(99, 902)]).Inv ∧ (at_ 99 0 [(99, 902)]).AtCycleStart ∧
      step (at_ 99 0 [(99, 902)]) = .next t ∧ t.status = .faulted ∧
      t.fkind = some .programOverrun) ∧
    (∃ t, (waiting 100 0 [5]).Inv ∧ (waiting 100 0 [5]).inputWait = true ∧
      step (waiting 100 0 [5]) = .next t ∧ t.status = .faulted) ∧
    ∃ t, (at_ 0 999 [(0, 101), (1, 1)]).Inv ∧ (at_ 0 999 [(0, 101), (1, 1)]).AtCycleStart ∧
      step (at_ 0 999 [(0, 101), (1, 1)]) = .next t ∧ t.status = .faulted ∧
      t.fkind ≠ some .syntaxFault ∧ t.fkind ≠ some .programOverrun :=
  ⟨rfl, rfl, by decide,
    ⟨_, State.inv_of_check (by decide), atCycleStart_of (by decide), rfl, by decide, by decide⟩,
    ⟨_, State.inv_of_check (by decide), atCycleStart_of (by decide), rfl, by decide, by decide⟩,
    ⟨_, State.inv_of_check (by decide), rfl, rfl, by decide⟩,
    _, State.inv_of_check (by decide), atCycleStart_of (by decide), rfl, by decide, by decide, by decide⟩

/-- A cycle's start, and the input wait. -/
theorem witness_DefensiveFaultsAreUnreachable :
    (∃ t, (at_ 99 999 [(99, 199)]).Inv ∧ (at_ 99 999 [(99, 199)]).status = .running ∧
      step (at_ 99 999 [(99, 199)]) = .next t ∧ (at_ 99 999 [(99, 199)]).inputWait = false) ∧
    ∃ t, (waiting 100 0 [5]).Inv ∧ (waiting 100 0 [5]).status = .running ∧
      step (waiting 100 0 [5]) = .next t :=
  ⟨⟨_, State.inv_of_check (by decide), by decide, rfl, by decide⟩,
    _, State.inv_of_check (by decide), by decide, rfl⟩

theorem witness_ReachableFaultKindsAreReached :
    FaultKind.malformedProgram ≠ .addressFault ∧ FaultKind.malformedProgram ≠ .valueFault ∧
    FaultKind.unimplementedOpcode ≠ .addressFault ∧ FaultKind.unimplementedOpcode ≠ .valueFault := by
  decide

theorem witness_FaultCodesNameTheKinds :
    faultCode (some .unimplementedOpcode) = faultCode (some .unimplementedOpcode) := rfl

/-- The four ranges of an address. -/
theorem witness_MemReadIsBoundsChecked :
    ((0 : Int) ≤ 0 ∧ (0 : Int) ≤ 99) ∧ ((0 : Int) ≤ 99 ∧ (99 : Int) ≤ 99) ∧ (-1 : Int) < 0 ∧
    (99 : Int) < 100 := by decide

theorem witness_MemWriteChecksThenWritesOneMailbox :
    ((-1 : Int) < 0 ∧ (99 : Int) < 100) ∧ (¬ InRange 1000 ∧ ¬ InRange (-1000)) ∧
    InRange 999 ∧ InRange (-999) ∧ (0 : Int) ≤ 99 ∧ Memory.wf (at_ 0 0 [(0, 1), (99, -1)]).mem = true := by
  simp only [InRange]
  decide

theorem witness_EqualMemoriesAreEqualData :
    Memory.wf [(0, 999), (99, -999)] = true ∧
    ∀ a : Nat, a ≤ 99 → Memory.get [(0, 999), (99, -999)] a = Memory.get [(0, 999), (99, -999)] a :=
  ⟨by decide, fun _ _ => rfl⟩

theorem witness_HaltFollowsItsRule :
    (at_ 0 0 []).AtCycleStart ∧ (at_ 99 0 []).AtCycleStart ∧ (1 : Int) ≠ 0 ∧ (99 : Int) ≠ 0 :=
  ⟨atCycleStart_of (by decide), atCycleStart_of (by decide), by decide, by decide⟩

theorem witness_Reserved4FollowsItsRule :
    (at_ 99 0 []).AtCycleStart ∧ (0 : Int) ≤ 99 ∧ (99 : Int) ≤ 99 :=
  ⟨atCycleStart_of (by decide), by decide, by decide⟩

theorem witness_Reserved4UnderTheNopPolicy :
    ((at_ 98 0 []).AtCycleStart ∧ (at_ 98 0 []).pc ≤ 98) ∧
    (at_ 99 0 []).AtCycleStart ∧ (at_ 99 0 []).pc = 99 :=
  ⟨⟨atCycleStart_of (by decide), by decide⟩, atCycleStart_of (by decide), by decide⟩

/-- Completes at 98, completes at 99, overflows by one, and addresses past both ends. -/
theorem witness_AddFollowsItsRule :
    ((at_ 98 999 []).AtCycleStart ∧ InRange ((at_ 98 999 []).acc + (at_ 98 999 []).mailbox 99) ∧
      (at_ 98 999 []).pc ≤ 98) ∧
    ((at_ 99 (-999) []).AtCycleStart ∧
      InRange ((at_ 99 (-999) []).acc + (at_ 99 (-999) []).mailbox 0) ∧ (at_ 99 (-999) []).pc = 99) ∧
    ((at_ 0 999 [(99, 1)]).AtCycleStart ∧
      ¬ InRange ((at_ 0 999 [(99, 1)]).acc + (at_ 0 999 [(99, 1)]).mailbox 99)) ∧
    (-1 : Int) < 0 ∧ (99 : Int) < 100 := by
  simp only [State.AtCycleStart, InRange]
  decide

theorem witness_SubtractFollowsItsRule :
    ((at_ 98 0 [(99, -999)]).AtCycleStart ∧
      InRange ((at_ 98 0 [(99, -999)]).acc - (at_ 98 0 [(99, -999)]).mailbox 99) ∧
      (at_ 98 0 [(99, -999)]).pc ≤ 98) ∧
    ((at_ 99 (-999) []).AtCycleStart ∧
      InRange ((at_ 99 (-999) []).acc - (at_ 99 (-999) []).mailbox 0) ∧ (at_ 99 (-999) []).pc = 99) ∧
    ((at_ 0 1 [(99, -999)]).AtCycleStart ∧
      ¬ InRange ((at_ 0 1 [(99, -999)]).acc - (at_ 0 1 [(99, -999)]).mailbox 99)) ∧
    (-1 : Int) < 0 ∧ (99 : Int) < 100 := by
  simp only [State.AtCycleStart, InRange]
  decide

theorem witness_ArithmeticIsExactAndUndoes :
    (at_ 97 999 [(99, 1)]).AtCycleStart ∧ InRange (at_ 97 999 [(99, 1)]).acc ∧
    (at_ 97 999 [(99, 1)]).pc ≤ 97 ∧ (0 : Int) ≤ 99 ∧ (99 : Int) ≤ 99 := by
  simp only [State.AtCycleStart, InRange]
  decide

theorem witness_FaultingArithmeticLeavesAccUnmodified :
    (at_ 99 999 [(99, 1)]).AtCycleStart ∧ (∃ t, exec (.add 99) (at_ 99 999 [(99, 1)]) = .next t ∧
      t.status = .faulted ∧ t.fkind ≠ some .programOverrun) ∧
    ∃ t, exec (.subtract 99) (at_ 99 (-999) [(99, 1)]) = .next t ∧
      t.status = .faulted ∧ t.fkind ≠ some .programOverrun :=
  ⟨atCycleStart_of (by decide), ⟨_, rfl, by decide, by decide⟩, _, rfl, by decide, by decide⟩

theorem witness_StoreFollowsItsRule :
    ((at_ 98 (-999) [(99, 5)]).AtCycleStart ∧ InRange (at_ 98 (-999) [(99, 5)]).acc ∧
      Memory.wf (at_ 98 (-999) [(99, 5)]).mem = true ∧ (at_ 98 (-999) [(99, 5)]).pc ≤ 98) ∧
    ((at_ 99 999 []).AtCycleStart ∧ InRange (at_ 99 999 []).acc ∧
      Memory.wf (at_ 99 999 []).mem = true ∧ (at_ 99 999 []).pc = 99) ∧
    ((-1 : Int) < 0 ∧ (99 : Int) < 100) ∧
    (at_ 0 1000 []).AtCycleStart ∧ ¬ InRange (at_ 0 1000 []).acc := by
  simp only [State.AtCycleStart, InRange]
  decide

theorem witness_LoadFollowsItsRule :
    ((at_ 98 0 [(99, -999)]).AtCycleStart ∧ InRange ((at_ 98 0 [(99, -999)]).mailbox 99) ∧
      (at_ 98 0 [(99, -999)]).pc ≤ 98) ∧
    ((at_ 99 0 []).AtCycleStart ∧ InRange ((at_ 99 0 []).mailbox 0) ∧ (at_ 99 0 []).pc = 99) ∧
    ((at_ 0 0 [(99, 1000)]).AtCycleStart ∧ ¬ InRange ((at_ 0 0 [(99, 1000)]).mailbox 99)) ∧
    (-1 : Int) < 0 ∧ (99 : Int) < 100 := by
  simp only [State.AtCycleStart, InRange]
  decide

/-- A STORE, an OUTPUT and a STORE elsewhere, and the LOAD; then a LOAD and a STORE. -/
theorem witness_StoreThenLoadRoundTrip :
    (∃ t u v, Memory.wf (at_ 0 (-999) []).mem = true ∧ InRange (at_ 0 (-999) []).acc ∧
      exec (.store 99) (at_ 0 (-999) []) = .next t ∧
      (∀ i ∈ [Instr.output, .store 98], i ≠ .store 99 ∧ i.wf = true) ∧
      execAll [.output, .store 98] t = .next u ∧ exec (.load 99) u = .next v) ∧
    ∃ t u, (at_ 97 5 [(99, -999)]).Inv ∧ (at_ 97 5 [(99, -999)]).AtCycleStart ∧
      exec (.load 99) (at_ 97 5 [(99, -999)]) = .next t ∧ exec (.store 99) t = .next u :=
  ⟨⟨_, _, _, by decide, by simp [InRange, at_], rfl, by decide, rfl, rfl⟩,
    _, _, State.inv_of_check (by decide), atCycleStart_of (by decide), rfl, rfl⟩

theorem witness_BranchFollowsItsRule :
    (at_ 0 0 []).AtCycleStart ∧ (at_ 99 0 []).AtCycleStart ∧ ((0 : Int) ≤ 99 ∧ (99 : Int) ≤ 99) ∧
    (-1 : Int) < 0 :=
  ⟨atCycleStart_of (by decide), atCycleStart_of (by decide), by decide, by decide⟩

theorem witness_BranchIfZeroFollowsItsRule :
    ((at_ 99 0 []).AtCycleStart ∧ (at_ 99 0 []).acc = 0) ∧
    ((at_ 98 1 []).AtCycleStart ∧ (at_ 98 1 []).acc ≠ 0 ∧ (at_ 98 1 []).pc ≤ 98) ∧
    (at_ 99 (-1) []).AtCycleStart ∧ (at_ 99 (-1) []).acc ≠ 0 ∧ (at_ 99 (-1) []).pc = 99 := by
  simp only [State.AtCycleStart]
  decide

theorem witness_BranchIfPositiveFollowsItsRule :
    ((at_ 99 0 []).AtCycleStart ∧ 0 ≤ (at_ 99 0 []).acc) ∧
    ((at_ 98 (-1) []).AtCycleStart ∧ (at_ 98 (-1) []).acc < 0 ∧ (at_ 98 (-1) []).pc ≤ 98) ∧
    (at_ 99 (-1) []).AtCycleStart ∧ (at_ 99 (-1) []).acc < 0 ∧ (at_ 99 (-1) []).pc = 99 := by
  simp only [State.AtCycleStart]
  decide

theorem witness_OnlyBranchesJump :
    (∃ t, exec (.branch 0) (at_ 99 0 []) = .next t ∧ t.pc ≠ (at_ 99 0 []).pc + 1) ∧
    ∃ t, exec (.notAWord (-1)) (at_ 99 0 []) = .next t ∧ t.pc ≠ (at_ 99 0 []).pc + 1 :=
  ⟨⟨_, rfl, by decide⟩, _, rfl, by decide⟩

theorem witness_IllegalSelectorsFault :
    (at_ 99 0 []).AtCycleStart ∧ ((3 : Int) ≠ 1 ∧ (3 : Int) ≠ 2) ∧ (99 : Int) ≠ 1 ∧ (99 : Int) ≠ 2 :=
  ⟨atCycleStart_of (by decide), by decide, by decide, by decide⟩

theorem witness_InputFollowsItsRule :
    ((at_ 98 0 [] [1000, -1000, 999, 4]).AtCycleStart ∧
      (at_ 98 0 [] [1000, -1000, 999, 4]).input = [1000, -1000] ++ 999 :: [4] ∧
      (∀ x ∈ ([1000, -1000] : List Int), ¬ InRange x) ∧ InRange 999 ∧
      (at_ 98 0 [] [1000, -1000, 999, 4]).pc ≤ 98) ∧
    (at_ 99 0 [] [-999]).AtCycleStart ∧ (at_ 99 0 [] [-999]).input = [] ++ -999 :: [] ∧
      InRange (-999) ∧ (at_ 99 0 [] [-999]).pc = 99 := by
  simp only [State.AtCycleStart, InRange]
  decide

theorem witness_InputWaitsUntilAnInRangeValue :
    ((at_ 99 0 [] [1000]).AtCycleStart ∧ ∀ x ∈ (at_ 99 0 [] [1000]).input, ¬ InRange x) ∧
    (waiting 100 0 []).Stalled ∧
    ((waiting 1 0 [-1000]).status = .running ∧ (waiting 1 0 [-1000]).inputWait = true ∧
      ∀ x ∈ (waiting 1 0 [-1000]).input, ¬ InRange x) ∧
    ((waiting 99 0 [1000, 999]).Inv ∧ (waiting 99 0 [1000, 999]).inputWait = true ∧
      (waiting 99 0 [1000, 999]).input = [1000] ++ 999 :: [] ∧
      (∀ x ∈ ([1000] : List Int), ¬ InRange x) ∧ InRange 999 ∧ (waiting 99 0 [1000, 999]).pc ≤ 99) ∧
    ((waiting 100 0 [-999]).Inv ∧ (waiting 100 0 [-999]).input = [] ++ -999 :: [] ∧
      InRange (-999) ∧ (waiting 100 0 [-999]).pc = 100) ∧
    Instr.input.wf = true ∧ (at_ 0 0 []).inputWait = false ∧
      ∃ t, exec .input (at_ 0 0 []) = .next t ∧ t.inputWait = true :=
  ⟨⟨atCycleStart_of (by decide), by simp [at_, InRange]⟩, ⟨rfl, rfl, rfl⟩,
    ⟨rfl, rfl, by simp [waiting, InRange]⟩,
    ⟨State.inv_of_check (by decide), rfl, rfl, by simp [InRange], by simp [InRange], by decide⟩,
    ⟨State.inv_of_check (by decide), rfl, by simp [InRange], rfl⟩, rfl, rfl, _, rfl, by decide⟩

theorem witness_LateInputIsLikeEarlyInput :
    (at_ 99 0 [] [1000]).AtCycleStart ∧
    ∃ t, exec .input (at_ 99 0 [] [1000]) = .next t ∧ t.inputWait = true :=
  ⟨atCycleStart_of (by decide), _, rfl, by decide⟩

theorem witness_OutputFollowsItsRule :
    ((at_ 98 (-999) []).AtCycleStart ∧ (at_ 98 (-999) []).pc ≤ 98) ∧
    (at_ 99 999 []).AtCycleStart ∧ (at_ 99 999 []).pc = 99 := by
  simp only [State.AtCycleStart]
  decide

theorem witness_TraceGrowsOnlyByIo :
    Instr.output.wf = true ∧ (∃ t, exec .output (at_ 99 7 []) = .next t) ∧
    (Instr.load 99).wf = true ∧ ∃ t, exec (.load 99) (at_ 99 7 []) = .next t :=
  ⟨rfl, ⟨_, rfl⟩, rfl, _, rfl⟩

theorem witness_OnlyStoreWritesMemory :
    (∃ t, exec (.store 99) (at_ 99 7 []) = .next t) ∧ ∃ t, exec .input (at_ 99 7 []) = .next t :=
  ⟨⟨_, rfl⟩, _, rfl⟩

theorem witness_OnlyAddSubtractLoadReadMemory :
    (∃ t, exec (.store 99) (at_ 99 7 []) = .next t) ∧
    ∀ aa, Instr.store 99 ≠ .add aa ∧ Instr.store 99 ≠ .subtract aa ∧ Instr.store 99 ≠ .load aa :=
  ⟨⟨_, rfl⟩, by simp⟩

theorem witness_OnlyLoadArithmeticInputWriteAcc :
    Instr.input.wf = true ∧ (at_ 99 7 [] [5]).inputWait = false ∧
    ∃ t, exec .input (at_ 99 7 [] [5]) = .next t ∧ t.acc ≠ (at_ 99 7 [] [5]).acc :=
  ⟨rfl, rfl, _, rfl, by decide⟩

theorem witness_AccumulatorInstructionsFrame :
    (∃ t, exec (.add 99) (at_ 98 7 []) = .next t) ∧
    (∃ t, exec (.subtract 99) (at_ 99 7 []) = .next t) ∧
    ∃ t, exec (.load (-1)) (at_ 99 7 []) = .next t :=
  ⟨⟨_, rfl⟩, ⟨_, rfl⟩, _, rfl⟩

theorem witness_StoreFrame :
    (∃ t, exec (.store 99) (at_ 98 7 []) = .next t) ∧
    ∃ t, exec (.store 100) (at_ 98 7 []) = .next t ∧ t.fkind ≠ some .programOverrun :=
  ⟨⟨_, rfl⟩, _, rfl, by decide⟩

theorem witness_ControlInstructionsFrame :
    (Instr.branchIfZero 99).wf = true ∧
    (∀ aa, Instr.branchIfZero 99 ≠ .add aa ∧ Instr.branchIfZero 99 ≠ .subtract aa ∧
      Instr.branchIfZero 99 ≠ .load aa ∧ Instr.branchIfZero 99 ≠ .store aa) ∧
    Instr.branchIfZero 99 ≠ .input ∧ Instr.branchIfZero 99 ≠ .output ∧
    ∃ t, exec (.branchIfZero 99) (at_ 99 7 []) = .next t :=
  ⟨rfl, by simp, by decide, by decide, _, rfl⟩

theorem witness_IoInstructionsFrame :
    (∃ t, exec .input (at_ 99 7 [] [5]) = .next t) ∧ ∃ t, exec .output (at_ 98 7 []) = .next t :=
  ⟨⟨_, rfl⟩, _, rfl⟩

theorem witness_StoreIsSeenByTheNextFetch :
    ((at_ 98 902 [(98, 399)]).AtCycleStart ∧ Memory.wf (at_ 98 902 [(98, 399)]).mem = true ∧
      InRange (at_ 98 902 [(98, 399)]).acc ∧ (at_ 98 902 [(98, 399)]).pc ≤ 98 ∧
      (at_ 98 902 [(98, 399)]).fetchedWord = 300 + ((at_ 98 902 [(98, 399)]).pc + 1)) ∧
    (at_ 0 (-999) [(0, 300)]).AtCycleStart ∧ Memory.wf (at_ 0 (-999) [(0, 300)]).mem = true ∧
      InRange (at_ 0 (-999) [(0, 300)]).acc ∧
      (at_ 0 (-999) [(0, 300)]).fetchedWord = 300 + (at_ 0 (-999) [(0, 300)]).pc := by
  simp only [State.AtCycleStart, InRange]
  decide

theorem witness_StepIgnoresTraceAndUnreadInput :
    ∃ t, step (at_ 99 0 [(99, 901)] [1000, 5, 6]) = .next t ∧ t.inputWait = false :=
  ⟨_, rfl, by decide⟩

theorem witness_HostCannotReloadOrWriteAfterBoot :
    (HostMove.supply [1000, 5] ≠ .reset ∧
      ∃ r, Run.host (.supply [1000, 5]) { phase := .booted, state := at_ 99 7 [] } = some r) ∧
    (HostMove.readStatus ≠ .reset ∧
      ∃ r, Run.host .readStatus { phase := .booted, state := at_ 99 7 [] } = some r) ∧
    at_ 1 0 [] ≠ State.reset :=
  ⟨⟨by decide, _, rfl⟩, ⟨by decide, _, rfl⟩, by decide⟩

/-- Before Boot, right after it, and with a cycle and an answer of the port. -/
theorem witness_EachRunBootsOnce :
    (.host .reset ∉ [RunMove.host .readStatus] ∧
      ∃ r, Run.play [.host .readStatus] Run.start = some r ∧ r.phase = .fresh) ∧
    .host .reset ∉ [RunMove.host (.boot [901]), .cycle, .host (.supply [5]), .cycle] ∧
      ∃ r, Run.play [.host (.boot [901]), .cycle, .host (.supply [5]), .cycle] Run.start = some r ∧
        r.phase = .booted :=
  ⟨⟨by decide, _, rfl, rfl⟩, by decide, _, rfl, rfl⟩

end Sys2Proof.Tests
end

section
/-! The invariant of the machine (10_state.md R33, R27, R31): the strengthened form that holds inside a
cycle, that every effect of an instruction leads from it back to the invariant, and the statements about
reset, Boot and the step that follow. -/

namespace Sys2Proof.Machine

/-! ### The digits a cycle latches, and the events it emits -/

theorem opcodeDigit_range {w : Int} (hw : 0 ≤ w ∧ w ≤ 999) :
    0 ≤ opcodeDigit w ∧ opcodeDigit w ≤ 9 := by
  unfold opcodeDigit; omega

theorem operandDigits_range (w : Int) : 0 ≤ operandDigits w ∧ operandDigits w ≤ 99 := by
  unfold operandDigits; omega

theorem digitsOf_decodeDigits {o aa : Int} (ho : 0 ≤ o ∧ o ≤ 9) :
    digitsOf (decodeDigits o aa) = (o, aa) := by
  by_cases h0 : o = 0
  · subst h0
    by_cases ha : aa = 0 <;> simp [decodeDigits, digitsOf, ha]
  by_cases h9 : o = 9
  · subst h9
    by_cases ha : aa = 0 ∨ aa = 1 ∨ aa = 2
    · rcases ha with rfl | rfl | rfl <;> rfl
    · simp only [not_or] at ha
      simp [decodeDigits, digitsOf, ha]
  obtain ⟨hlo, hhi⟩ : 1 ≤ o ∧ o ≤ 8 := by omega
  interval_cases o <;> rfl

/-- The cycle of a fetched value latches its decimal digits (40_cycle.md R83). -/
theorem digitsOf_decode (w : Int) : digitsOf (decode w) = (opcodeDigit w, operandDigits w) := by
  by_cases hw : 0 ≤ w ∧ w ≤ 999
  · rw [decode, if_pos (isWord_iff.2 hw), digitsOf_decodeDigits (opcodeDigit_range hw)]
  · rw [decode_notAWord (by omega)]
    rfl

/-- Out-of-range integers make legal rejections. -/
theorem IoEvent.legal_rejected {vs : List Int} (h : ∀ x ∈ vs, ¬ (-999 ≤ x ∧ x ≤ 999)) :
    ∀ e ∈ vs.map IoEvent.rejected, e.Legal := by
  refine List.forall_mem_map.2 fun x hx => ?_
  have := h x hx
  simp only [IoEvent.Legal]
  omega

/-! ### The invariant inside a cycle -/

/-- The invariant inside a cycle that has raised no fault, halted or begun to wait: `State.Inv` of a
RUNNING core, but that `PC` may be 100, as step 5 has yet to look (10_state.md R21). -/
structure State.InCycle (s : State) : Prop where
  memWf : Memory.wf s.mem = true
  memRange : ∀ a : Nat, -999 ≤ s.mailbox a ∧ s.mailbox a ≤ 999
  accRange : -999 ≤ s.acc ∧ s.acc ≤ 999
  irRange : 0 ≤ s.ir ∧ s.ir ≤ 9
  arRange : 0 ≤ s.ar ∧ s.ar ≤ 99
  pcRange : 0 ≤ s.pc ∧ s.pc ≤ 100
  faddrRange : 0 ≤ s.faddr ∧ s.faddr ≤ 99
  running : s.status = .running
  noFault : s.fkind = none
  notWaiting : s.inputWait = false
  traceLegal : ∀ e ∈ s.trace, e.Legal

namespace State

/-- Inside a running core, waiting or not, the invariant gives the one of the cycle once the wait is
taken back. -/
theorem Inv.inCycle {s : State} (h : s.Inv) (hr : s.status = .running) :
    ({ s with inputWait := false } : State).InCycle where
  memWf := h.memWf
  memRange := h.memRange
  accRange := h.accRange
  irRange := h.irRange
  arRange := h.arRange
  pcRange := h.pcRange
  faddrRange := h.faddrRange
  running := hr
  noFault := h.fkindTied.2 (by simp [hr])
  notWaiting := rfl
  traceLegal := h.traceLegal

/-- A port that has more to give is no concern of the invariant. -/
theorem Inv.supplyInput {s : State} (h : s.Inv) (vs : List Int) : (supplyInput vs s).Inv :=
  { h with }

/-! What an instruction, or Boot, may write. -/

theorem InCycle.withAcc {s : State} (h : s.InCycle) {v : Int} (hv : -999 ≤ v ∧ v ≤ 999) :
    ({ s with acc := v } : State).InCycle :=
  { h with accRange := hv }

theorem InCycle.withPc {s : State} (h : s.InCycle) {a : Int} (ha : 0 ≤ a ∧ a ≤ 100) :
    ({ s with pc := a } : State).InCycle :=
  { h with pcRange := ha }

theorem InCycle.withMem {s : State} (h : s.InCycle) {m : Memory} (hw : Memory.wf m = true)
    (hm : ∀ b, -999 ≤ Memory.get m b ∧ Memory.get m b ≤ 999) :
    ({ s with mem := m } : State).InCycle :=
  { h with memWf := hw, memRange := hm }

/-! The ways out of a cycle: each leads to a state that meets the invariant. -/

/-- The cycle ends at an address. -/
theorem InCycle.inv {s : State} (h : s.InCycle) (hp : s.pc ≤ 99) : s.Inv :=
  { h with
    pcAtStart := fun _ _ => hp
    fkindTied := by simp [h.noFault, h.running]
    waiting := fun hw => by simp [h.notWaiting] at hw
    haltedIr := fun hh => by simp [h.running] at hh }

/-- The cycle ends in a fault. -/
theorem InCycle.raise {s : State} (h : s.InCycle) (k : FaultKind) {a : Int}
    (ha : 0 ≤ a ∧ a ≤ 99) : (s.raise k a).Inv :=
  { h with
    faddrRange := ha
    pcAtStart := nofun
    fkindTied := by simp
    waiting := fun hw => by simp [h.notWaiting] at hw
    haltedIr := nofun }

/-- The cycle ends with step 5. -/
theorem InCycle.overrunCheck {s : State} (h : s.InCycle) {a : Int} (ha : 0 ≤ a ∧ a ≤ 99) :
    (overrunCheck a s).Inv := by
  rcases overrunCheck_cases a s with ⟨he, hp⟩ | ⟨he, -⟩ <;> rw [he]
  · exact h.inv (hp h.running h.notWaiting)
  · exact h.raise .programOverrun ha

/-- The cycle of HALT ends. -/
theorem InCycle.halted {s : State} (h : s.InCycle) (hd : s.ir = 0 ∧ s.ar = 0) :
    ({ s with status := .halted } : State).Inv :=
  { h with
    pcAtStart := nofun
    fkindTied := by simp [h.noFault]
    waiting := fun hw => by simp [h.notWaiting] at hw
    haltedIr := fun _ => hd }

/-! What the input and output instructions do. -/

theorem InCycle.emits {s : State} (h : s.InCycle) {es : List IoEvent} (hes : ∀ e ∈ es, e.Legal) :
    ({ s with trace := s.trace ++ es } : State).InCycle :=
  { h with traceLegal := List.forall_mem_append.2 ⟨h.traceLegal, hes⟩ }

/-- INPUT accepts an integer after it has rejected others. -/
theorem InCycle.accepts {s : State} (h : s.InCycle) {pre : List Int} {v : Int} (post : List Int)
    (hpre : ∀ x ∈ pre, ¬ (-999 ≤ x ∧ x ≤ 999)) (hv : -999 ≤ v ∧ v ≤ 999) :
    ({ s with
        acc := v
        input := post
        inputWait := false
        trace := s.trace ++ pre.map .rejected ++ [.accepted v] } : State).InCycle := by
  have hes : ∀ e ∈ pre.map IoEvent.rejected ++ [.accepted v], e.Legal :=
    List.forall_mem_append.2 ⟨IoEvent.legal_rejected hpre, List.forall_mem_singleton.2 hv⟩
  rw [List.append_assoc]
  exact { h.emits hes with accRange := hv, notWaiting := rfl }

/-- INPUT has rejected all the port has and waits (10_state.md R31). -/
theorem InCycle.waits {s : State} (h : s.InCycle) (hd : s.ir = 9 ∧ s.ar = 1) (hp : 1 ≤ s.pc)
    {vs : List Int} (hno : ∀ x ∈ vs, ¬ (-999 ≤ x ∧ x ≤ 999)) :
    ({ s with input := [], inputWait := true, trace := s.trace ++ vs.map .rejected } : State).Inv :=
  { h.emits (IoEvent.legal_rejected hno) with
    pcAtStart := nofun
    fkindTied := by simp [h.noFault, h.running]
    waiting := fun _ => ⟨h.running, hd.1, hd.2, hp⟩
    haltedIr := fun hh => by simp [h.running] at hh }

end State

/-! ### Every step keeps the invariant -/

/-- Steps 2 and 3 keep the invariant of the cycle, when the digits they latch are digits. -/
theorem dispatched_inCycle {i : Instr} {s : State} (h : s.InCycle) (hp : s.pc ≤ 99)
    (ho : 0 ≤ (digitsOf i).1 ∧ (digitsOf i).1 ≤ 9) (ha : 0 ≤ (digitsOf i).2 ∧ (digitsOf i).2 ≤ 99) :
    (dispatched i s).InCycle := by
  have hpc : 0 ≤ s.pc + 1 ∧ s.pc + 1 ≤ 100 := by have := h.pcRange; omega
  exact { h with irRange := ho, arRange := ha, pcRange := hpc }

/-- Every effect of an instruction ends in a state that meets the invariant. -/
theorem Effect.inv {s t : State} {i : Instr} (he : Effect s i t) (h : s.InCycle) (hp : s.pc ≤ 99)
    (hd : (dispatched i s).InCycle) : t.Inv := by
  have ha : 0 ≤ s.pc ∧ s.pc ≤ 99 := ⟨h.pcRange.1, hp⟩
  cases he with
  | notAWord w => exact h.raise .syntaxFault ha
  | raises _ k => exact hd.raise k ha
  | halts _ hi => exact hd.halted (by rcases hi with rfl | rfl <;> exact ⟨rfl, rfl⟩)
  | adds aa _ hr | subtracts aa _ hr | loads aa _ hr =>
    exact (hd.withAcc hr).overrunCheck ha
  | stores aa haa hr =>
    have hwf := Memory.set_wf s.acc h.memWf (a := aa.toNat) (by omega)
    exact (hd.withMem hwf (Memory.set_range h.memWf h.memRange hr)).overrunCheck ha
  | jumps _ aa hi =>
    have haa : aa = (dispatched i s).ar := by rcases hi with ⟨rfl, -⟩ | ⟨rfl, -⟩ | ⟨rfl, -⟩ <;> rfl
    have hpc : 0 ≤ aa ∧ aa ≤ 100 := by have := hd.arRange; omega
    exact (hd.withPc hpc).overrunCheck ha
  | fallsThrough => exact hd.overrunCheck ha
  | accepts _ _ pre v post _ hpre hv => exact (hd.accepts post hpre hv).overrunCheck ha
  | waits _ hi hno =>
    have hdigits : (dispatched i s).ir = 9 ∧ (dispatched i s).ar = 1 := by
      rcases hi with rfl | rfl <;> exact ⟨rfl, rfl⟩
    exact hd.waits hdigits (show 1 ≤ s.pc + 1 by omega) hno
  | outputs =>
    exact (hd.emits (List.forall_mem_singleton.2 (show (IoEvent.output s.acc).Legal from
      h.accRange))).overrunCheck ha

/-- The instruction that a mailbox holds ends its cycle in a state that meets the invariant. -/
theorem exec_decode_inv {w : Int} {s t : State} (h : s.InCycle) (hp : s.pc ≤ 99)
    (ht : exec (decode w) s = .next t) : t.Inv := by
  by_cases hw : 0 ≤ w ∧ w ≤ 999
  · have hd : (dispatched (decode w) s).InCycle := by
      apply dispatched_inCycle h hp <;> rw [digitsOf_decode]
      · exact opcodeDigit_range hw
      · exact operandDigits_range w
    exact (exec_effect ht).inv h hp hd
  · rw [decode_notAWord (by omega)] at ht
    exact Host.Outcome.next.inj ht ▸ h.raise .syntaxFault ⟨h.pcRange.1, hp⟩

/-- A waiting INPUT completes or goes on waiting (45_io.md R145); `PC` is past the instruction. -/
theorem resumeInput_inv {s : State} (h : s.Inv) (hw : s.inputWait = true) : (resumeInput s).Inv := by
  obtain ⟨hr, hir, har, hp⟩ := h.waiting hw
  have hc := h.inCycle hr
  have ha : 0 ≤ s.pc - 1 ∧ s.pc - 1 ≤ 99 := by have := h.pcRange; omega
  unfold resumeInput inputHandler
  rcases firstInRange_cases s.input with ⟨pre, v, post, hin, hpre, hv⟩ | hno
  · rw [hin, inputLoop_accepts pre post hpre hv]
    exact (hc.accepts post hpre hv).overrunCheck ha
  · rw [inputLoop_waits _ hno, overrunCheck_self fun _ h => absurd h (by simp)]
    exact hc.waits ⟨hir, har⟩ hp hno

/-- Settles O6, by the state of the controller: a terminal step changes nothing, a waiting INPUT goes
on, and a cycle ends with one of the effects of the fetched instruction. -/
theorem stepKeepsTheInvariant : Obligations.StepKeepsTheInvariant := by
  intro s h
  cases hs : s.status with
  | halted => exact ⟨s, step_halted hs, h⟩
  | faulted => exact ⟨s, step_faulted hs, h⟩
  | running =>
    cases hw : s.inputWait with
    | true => exact ⟨_, step_waiting hs hw, resumeInput_inv h hw⟩
    | false =>
      have hp : s.pc ≤ 99 := h.pcAtStart hs hw
      have hc : s.InCycle := by simpa [← hw] using h.inCycle hs
      obtain ⟨t, ht⟩ := exec_next (decode (s.mailbox s.pc.toNat)) s
      exact ⟨t, (step_fetch hs hw ⟨h.pcRange.1, hp⟩).trans ht, exec_decode_inv hc hp ht⟩

/-! ### Reset and Boot -/

theorem reset_inCycle : State.reset.InCycle where
  memWf := reset_mem_wf
  memRange := fun _ => by simp [State.mailbox, State.reset, Memory.get]
  accRange := by decide
  irRange := by decide
  arRange := by decide
  pcRange := by decide
  faddrRange := by decide
  running := rfl
  noFault := rfl
  notWaiting := rfl
  traceLegal := nofun

/-- Settles O4: the reset state is one inside a cycle whose `PC` is an address. -/
theorem resetMeetsTheInvariant : Obligations.ResetMeetsTheInvariant :=
  reset_inCycle.inv (by decide)

/-- Boot on the reset state, successful or not, ends in a state that meets the invariant. -/
theorem boot_reset_inv (tokens : List Int) : (boot tokens State.reset).Inv := by
  rcases bootLoop_cases tokens 0 [] rfl (by simp [Memory.get]) with ⟨n, hn, hw, hm⟩ | ⟨j, hj, hlt⟩
  · rw [boot_ok hn]
    exact (reset_inCycle.withMem hw hm).inv (show (0 : Int) ≤ 99 by decide)
  · obtain ⟨hw, hm⟩ := failedBootMemory_wf tokens
    rw [boot_error hj]
    exact (reset_inCycle.withMem hw hm).raise .malformedProgram (by omega)

/-- Settles O5: Boot leaves the invariant, and what the port will supply is no concern of it. -/
theorem launchMeetsTheInvariant : Obligations.LaunchMeetsTheInvariant :=
  fun tokens ins => (boot_reset_inv tokens).supplyInput ins

end Sys2Proof.Machine
end

section
/-! The memory list is canonical data: two lists in canonical form that read alike are equal. -/

namespace Sys2Proof.Machine

/-- A list with an entry in front reads otherwise than one whose addresses all lie above it. -/
theorem Memory.head_not_read_above {k : Nat} {v : Int} {m n : Memory} (hv : v ≠ 0)
    (hn : Memory.wfFrom (k + 1) n = true) :
    Memory.get ((k, v) :: m) k ≠ Memory.get n k := by
  rw [Memory.get_below hn (Nat.lt_succ_self k)]
  simpa [Memory.get] using hv

/-- Two lists in canonical form from one address on are equal when they read alike. -/
theorem Memory.eq_of_get_eq_from {m : Memory} : ∀ {n : Memory} {lo : Nat},
    Memory.wfFrom lo m = true → Memory.wfFrom lo n = true →
    (∀ a, Memory.get m a = Memory.get n a) → m = n := by
  induction m with
  | nil =>
    rintro (_ | ⟨⟨k, v⟩, n⟩) lo _ hn hget
    · rfl
    · exact absurd (hget k).symm
        (Memory.head_not_read_above (Memory.wfFrom_cons.1 hn).2.2.1 rfl)
  | cons kv m ih =>
    obtain ⟨k, v⟩ := kv
    intro n lo hm hn hget
    obtain ⟨-, hk, hv, hm'⟩ := Memory.wfFrom_cons.1 hm
    rcases n with _ | ⟨⟨j, w⟩, n⟩
    · exact absurd (hget k) (Memory.head_not_read_above hv rfl)
    obtain ⟨-, hj, hw, hn'⟩ := Memory.wfFrom_cons.1 hn
    rcases lt_trichotomy k j with hkj | rfl | hjk
    · exact absurd (hget k)
        (Memory.head_not_read_above hv (Memory.wfFrom_cons.2 ⟨hkj, hj, hw, hn'⟩))
    · have hvw : v = w := by simpa [Memory.get] using hget k
      have htail : ∀ a, Memory.get m a = Memory.get n a := by
        intro a
        by_cases ha : a ≤ k
        · rw [Memory.get_below hm' (by omega), Memory.get_below hn' (by omega)]
        · have hne : k ≠ a := by omega
          simpa [Memory.get, hne] using hget a
      rw [hvw, ih hm' hn' htail]
    · exact absurd (hget j).symm
        (Memory.head_not_read_above hw (Memory.wfFrom_cons.2 ⟨hjk, hk, hv, hm'⟩))

/-- Settles O27: past address 99 both lists read 0, so they read alike at every address. -/
theorem equalMemoriesAreEqualData : Obligations.EqualMemoriesAreEqualData := by
  intro m n hm hn hget
  refine Memory.eq_of_get_eq_from hm hn fun a => ?_
  by_cases ha : a ≤ 99
  · exact hget a ha
  · rw [Memory.get_above hm (by omega), Memory.get_above hn (by omega)]

end Sys2Proof.Machine
end

section
/-! Who writes the accumulator (10_state.md R22). -/

namespace Sys2Proof.Machine

@[simp] theorem dispatched_acc (i : Instr) (s : State) : (dispatched i s).acc = s.acc := rfl

/-- An effect that changes the accumulator is that of an instruction that selects INPUT, ADD, SUBTRACT
or LOAD. -/
theorem Effect.acc_eq_or_writer {s t : State} {i : Instr} (he : Effect s i t) :
    t.acc = s.acc ∨ (i = .input ∨ i = .ioIllegalSelector3To99 1) ∨
      ∃ aa, i = .add aa ∨ i = .subtract aa ∨ i = .load aa := by
  cases he with
  | adds aa => exact .inr (.inr ⟨aa, .inl rfl⟩)
  | subtracts aa => exact .inr (.inr ⟨aa, .inr (.inl rfl)⟩)
  | loads aa => exact .inr (.inr ⟨aa, .inr (.inr rfl)⟩)
  | accepts _ hi => exact .inr (.inl hi)
  | notAWord | raises | halts | waits => exact .inl rfl
  | stores | jumps | fallsThrough | outputs => exact .inl (by simp)

/-- Settles O50: the selector 1 is INPUT's alone among the well-formed instructions. -/
theorem onlyLoadArithmeticInputWriteAcc : Obligations.OnlyLoadArithmeticInputWriteAcc := by
  intro i s t hwf ht hne
  rcases (exec_effect ht).acc_eq_or_writer with heq | (hi | rfl) | hi
  · exact absurd heq hne
  · exact .inl hi
  · simp [Instr.wf] at hwf
  · exact .inr hi

end Sys2Proof.Machine
end

section
/-! What Boot loads (70_reset_and_hazards.md R181), and the values after reset (10_state.md R32). -/

namespace Sys2Proof.Machine

/-- Boot's loop from mailbox `k` on does not write a mailbox below `k`. -/
theorem bootLoop_get_below {tokens : List Int} : ∀ {k : Nat} {m n : Memory},
    bootLoop k tokens m = .ok n → ∀ b, b < k → Memory.get n b = Memory.get m b := by
  induction tokens with
  | nil =>
    intro k m n h b _
    rw [Except.ok.inj h]
  | cons t ts ih =>
    intro k m n h b hb
    rw [bootLoop_cons] at h
    split_ifs at h
    · rw [ih h b (by omega), Memory.get_set_other t (by omega)]
    · rw [Except.ok.inj h]

/-- Boot's loop from mailbox `k` on puts token `i` into mailbox `k + i`, and leaves the mailboxes past
the last token as they are. -/
theorem bootLoop_get {tokens : List Int} : ∀ {k : Nat} {m n : Memory},
    bootLoop k tokens m = .ok n → Memory.wf m = true → ∀ i, k + i < 100 →
      Memory.get n (k + i) = (tokens[i]?).getD (Memory.get m (k + i)) := by
  induction tokens with
  | nil =>
    intro k m n h _ i _
    rw [Except.ok.inj h]
    rfl
  | cons t ts ih =>
    intro k m n h hm i hi
    have hk : k < 100 := by omega
    rw [bootLoop_cons, if_pos hk] at h
    split_ifs at h
    cases i with
    | zero => exact (bootLoop_get_below h k (by omega)).trans (Memory.get_set_same k t hm)
    | succ i =>
      have hrest := ih h (Memory.set_wf t hm hk) i (by omega)
      rw [Memory.get_set_other t (by omega)] at hrest
      simpa [Nat.add_assoc, Nat.add_comm 1] using hrest

/-- Where the first 100 tokens are all words, Boot's loop rejects none. -/
theorem bootLoop_ok_of_valid {tokens : List Int}
    (hvalid : ∀ (k : Nat) (t : Int), k < 100 → tokens[k]? = some t → ValidToken t) :
    ∃ m, bootLoop 0 tokens [] = .ok m := by
  cases h : bootLoop 0 tokens [] with
  | ok m => exact ⟨m, rfl⟩
  | error j =>
    obtain ⟨i, u, rfl, hlt, hu, hbad, -⟩ := bootLoop_error tokens h
    exact absurd (hvalid i u (by omega) hu) hbad

/-- What a successful Boot leaves: mailbox `k` holds token `k`, or 0 where there is none, and every
other component has its reset value. -/
theorem boot_loads {tokens : List Int}
    (hvalid : ∀ (k : Nat) (t : Int), k < 100 → tokens[k]? = some t → ValidToken t) :
    (∀ k, k < 100 → (boot tokens State.reset).mailbox k = (tokens[k]?).getD 0) ∧
      boot tokens State.reset = { State.reset with mem := (boot tokens State.reset).mem } := by
  obtain ⟨m, hm⟩ := bootLoop_ok_of_valid hvalid
  rw [boot_ok hm]
  refine ⟨fun k hk => ?_, rfl⟩
  simpa [State.mailbox, Memory.get] using bootLoop_get hm rfl k (by omega)

/-- Settles O1: the reset values are those of the record, and Boot's part is what `boot_loads` says. -/
theorem resetValuesAreThoseOfTheTable : Obligations.ResetValuesAreThoseOfTheTable := by
  refine ⟨rfl, rfl, rfl, rfl, fun _ => rfl, rfl, rfl, rfl, rfl, fun tokens hvalid => ?_⟩
  obtain ⟨hloaded, hframe⟩ := boot_loads hvalid
  exact ⟨fun k t hk ht => by rw [hloaded k hk, ht]; rfl, hframe⟩

end Sys2Proof.Machine
end

section
/-! The two memory primitives (20_memory.md R42, R43), and STORE as the only writer of memory (R46). -/

namespace Sys2Proof.Machine

/-- Settles O25, by when `memRead` answers a value and when a fault. -/
theorem memReadIsBoundsChecked : Obligations.MemReadIsBoundsChecked := by
  intro a s
  exact ⟨fun hlo hhi => memRead_ok.2 ⟨⟨hlo, hhi⟩, rfl⟩,
    fun hout => memRead_error.2 ⟨by omega, rfl⟩⟩

/-- Settles O26: which answer `memWrite` gives is `memWrite_error` and `memWrite_ok`, and what the
memory written reads is read after write. -/
theorem memWriteChecksThenWritesOneMailbox : Obligations.MemWriteChecksThenWritesOneMailbox := by
  intro a v s
  refine ⟨fun hout => ?_, fun hlo hhi hv => ?_, fun hlo hhi hv hwf => ?_⟩
  · exact memWrite_error.2 (.inl ⟨by omega, rfl⟩)
  · exact memWrite_error.2 (.inr ⟨⟨hlo, hhi⟩, hv, rfl⟩)
  · exact ⟨_, memWrite_ok.2 ⟨⟨hlo, hhi⟩, hv, rfl⟩, rfl, Memory.set_wf v hwf (by omega),
      Memory.get_set_same _ v hwf, fun _ hb => Memory.get_set_other v hb⟩

@[simp] theorem dispatched_mem (i : Instr) (s : State) : (dispatched i s).mem = s.mem := rfl

/-- An effect that changes memory is that of STORE, and puts the accumulator into its operand's
mailbox. -/
theorem Effect.mem_eq_or_store {s t : State} {i : Instr} (he : Effect s i t) :
    t.mem = s.mem ∨ ∃ aa, i = .store aa ∧ t.mem = Memory.set s.mem aa.toNat s.acc := by
  cases he with
  | stores aa => exact .inr ⟨aa, rfl, by simp⟩
  | notAWord | raises | halts | waits => exact .inl rfl
  | adds | subtracts | loads | jumps | fallsThrough | accepts | outputs => exact .inl (by simp)

/-- Settles O48: memory is as it was, or STORE has set one mailbox. -/
theorem onlyStoreWritesMemory : Obligations.OnlyStoreWritesMemory := by
  intro i s t ht
  rcases (exec_effect ht).mem_eq_or_store with hmem | ⟨aa, rfl, hmem⟩
  · by_cases hi : ∃ aa, i = .store aa
    · obtain ⟨aa, rfl⟩ := hi
      exact .inr ⟨aa, rfl, fun b _ => congrArg (Memory.get · b) hmem⟩
    · exact .inl ⟨not_exists.1 hi, hmem⟩
  · refine .inr ⟨aa, rfl, fun b hb => ?_⟩
    rw [State.mailbox, hmem, Memory.get_set_other _ hb]
    rfl

end Sys2Proof.Machine
end

section
/-! Who reads memory (20_memory.md R46): a handler that does not read it leads from two states that
differ in memory alone to states, or to a fault, that differ in memory alone. -/

namespace Sys2Proof.Machine

/-- With any other memory, the handler does the same to everything but memory. -/
def MemoryBlind (f : Handler) : Prop :=
  ∀ (s : State) (m : Memory), ∃ n,
    f { s with mem := m } = (f s).map fun t => { t with mem := n }

theorem overrunCheck_withMem (a : Int) (s : State) (m : Memory) :
    overrunCheck a { s with mem := m } = { overrunCheck a s with mem := m } := by
  simp only [overrunCheck]
  split_ifs <;> rfl

/-- The cycle around a handler reads no memory of its own. -/
theorem MemoryBlind.cycle {f : Handler} (hf : MemoryBlind f) (opcode aa : Int) (s : State)
    (m : Memory) :
    ∃ n, cycle opcode aa f { s with mem := m } = { cycle opcode aa f s with mem := n } := by
  obtain ⟨n, hn⟩ := hf ((s.latch opcode aa).advance s.pc) m
  rcases cycle_cases opcode aa f s with ⟨t, ht, hc⟩ | ⟨k, hk, hc⟩
  · rw [ht] at hn
    exact ⟨n, by rw [hc, ← overrunCheck_withMem]; exact cycle_ok hn⟩
  · rw [hk] at hn
    exact ⟨m, by rw [hc]; exact cycle_error hn⟩

/-! ### The handlers that read no memory -/

theorem haltHandler_memoryBlind : MemoryBlind haltHandler := by
  intro s m
  refine ⟨m, ?_⟩
  simp only [haltHandler_eq]
  split_ifs <;> rfl

/-- STORE writes the accumulator, whatever memory holds. -/
theorem storeHandler_memoryBlind : MemoryBlind storeHandler := by
  intro s m
  refine ⟨Memory.set m s.ar.toNat s.acc, ?_⟩
  simp only [storeHandler_eq]
  split_ifs <;> rfl

theorem reserved4Handler_memoryBlind (policy : Op4Policy) :
    MemoryBlind (reserved4Handler policy) := by
  intro s m
  cases policy <;> exact ⟨m, rfl⟩

theorem branchHandler_memoryBlind : MemoryBlind branchHandler := by
  intro s m
  refine ⟨m, ?_⟩
  simp only [branchHandler_eq]
  split_ifs <;> rfl

theorem branchIfZeroHandler_memoryBlind : MemoryBlind branchIfZeroHandler := by
  intro s m
  refine ⟨m, ?_⟩
  simp only [branchIfZeroHandler_eq]
  split_ifs <;> rfl

theorem branchIfPositiveHandler_memoryBlind : MemoryBlind branchIfPositiveHandler := by
  intro s m
  refine ⟨m, ?_⟩
  simp only [branchIfPositiveHandler_eq]
  split_ifs <;> rfl

theorem inputLoop_withMem (vs : List Int) (s : State) (m : Memory) :
    inputLoop vs { s with mem := m } = { inputLoop vs s with mem := m } := by
  induction vs generalizing s with
  | nil => rfl
  | cons v vs ih =>
    simp only [inputLoop]
    split_ifs
    · rfl
    · exact ih (s.emit (.rejected v))

theorem ioHandler_memoryBlind : MemoryBlind ioHandler := by
  intro s m
  refine ⟨m, ?_⟩
  simp only [ioHandler_eq]
  split_ifs
  · exact congrArg Except.ok (inputLoop_withMem s.input s m)
  · rfl
  · rfl

/-- Settles O49: beside the fault of a value that is no word, each instruction is the cycle around a
handler, and only those of ADD, SUBTRACT and LOAD read memory. -/
theorem onlyAddSubtractLoadReadMemory : Obligations.OnlyAddSubtractLoadReadMemory := by
  intro i s t m ht hi
  have hcycle : ∀ {f : Handler}, MemoryBlind f → ∀ o aa : Int,
      (∀ u, exec i u = .next (cycle o aa f u)) →
      ∃ n, exec i { s with mem := m } = .next { t with mem := n } := by
    intro f hf o aa hexec
    obtain ⟨n, hn⟩ := hf.cycle o aa s m
    rw [hexec] at ht
    exact ⟨n, by rw [hexec, hn, Host.Outcome.next.inj ht]⟩
  cases i with
  | add aa => exact absurd rfl (hi aa).1
  | subtract aa => exact absurd rfl (hi aa).2.1
  | load aa => exact absurd rfl (hi aa).2.2
  | halt => exact hcycle haltHandler_memoryBlind 0 0 fun _ => rfl
  | haltIllegalOperand aa => exact hcycle haltHandler_memoryBlind 0 aa fun _ => rfl
  | store aa => exact hcycle storeHandler_memoryBlind 3 aa fun _ => rfl
  | reserved4 aa => exact hcycle (reserved4Handler_memoryBlind _) 4 aa fun _ => rfl
  | branch aa => exact hcycle branchHandler_memoryBlind 6 aa fun _ => rfl
  | branchIfZero aa => exact hcycle branchIfZeroHandler_memoryBlind 7 aa fun _ => rfl
  | branchIfPositive aa => exact hcycle branchIfPositiveHandler_memoryBlind 8 aa fun _ => rfl
  | ioIllegalSelector0 => exact hcycle ioHandler_memoryBlind 9 0 fun _ => rfl
  | input => exact hcycle ioHandler_memoryBlind 9 1 fun _ => rfl
  | output => exact hcycle ioHandler_memoryBlind 9 2 fun _ => rfl
  | ioIllegalSelector3To99 aa => exact hcycle ioHandler_memoryBlind 9 aa fun _ => rfl
  | notAWord w => exact ⟨m, Host.Outcome.next.inj ht ▸ rfl⟩

end Sys2Proof.Machine
end

section
/-! Code that a program writes while it runs (20_memory.md R55, 70_reset_and_hazards.md R187). -/

namespace Sys2Proof.Machine

/-- STORE to a mailbox, with a value that fits (43_load_store.md R120). -/
theorem exec_store {aa : Int} {s : State} (ha : 0 ≤ aa ∧ aa ≤ 99) (hacc : InRange s.acc) :
    exec (.store aa) s = .next (overrunCheck s.pc
      { decodedAt 3 aa s with mem := Memory.set s.mem aa.toNat s.acc }) := by
  have hneg : ¬ aa < 0 := by omega
  have hhandler := (storeHandler_eq ((s.latch 3 aa).advance s.pc)).trans
    ((if_neg hneg).trans ((if_pos ha.2).trans (if_pos hacc)))
  exact congrArg Host.Outcome.next (cycle_ok hhandler)

/-- At its start, a cycle is the instruction that the fetched word stands for (40_cycle.md R85). -/
theorem State.AtCycleStart.step_eq {s : State} (hs : s.AtCycleStart) :
    step s = exec (decode s.fetchedWord) s :=
  step_fetch hs.1 hs.2.1 hs.2.2

theorem decode_store {aa : Int} (ha : 0 ≤ aa ∧ aa ≤ 99) : decode (300 + aa) = .store aa :=
  decode_wordOf (o := 3) (by decide) ha

/-- A cycle below 99 that fetches STORE ends as the STORE that was fetched, whatever mailbox it
writes. -/
theorem step_store {aa : Int} {s : State} (hs : s.AtCycleStart) (hacc : InRange s.acc)
    (hpc : s.pc ≤ 98) (ha : 0 ≤ aa ∧ aa ≤ 99) (hw : s.fetchedWord = 300 + aa) :
    step s = .next { decodedAt 3 aa s with mem := Memory.set s.mem aa.toNat s.acc } := by
  rw [hs.step_eq, hw, decode_store ha, exec_store ha hacc, overrunCheck_self fun _ _ => ?_]
  show s.pc + 1 ≤ 99
  omega

/-- Settles O55: the step writes the accumulator into the mailbox that `PC` points to next, or that it
came from, and the next fetch is an ordinary read of it. -/
theorem storeIsSeenByTheNextFetch : Obligations.StoreIsSeenByTheNextFetch := by
  refine ⟨fun s hs hwf hacc hpc hw => ?_, fun s hs hwf hacc hpc hw => ?_⟩
  · obtain ⟨hrun, hwait, hp⟩ := id hs
    have hnext : 0 ≤ s.pc + 1 ∧ s.pc + 1 ≤ 99 := by omega
    have hstart : State.AtCycleStart
        { decodedAt 3 (s.pc + 1) s with mem := Memory.set s.mem (s.pc + 1).toNat s.acc } :=
      ⟨hrun, hwait, hnext⟩
    have hfetched := Memory.get_set_same (s.pc + 1).toNat s.acc hwf
    exact ⟨_, step_store hs hacc hpc hnext hw, hstart,
      hstart.step_eq.trans (congrArg (fun w => exec (decode w) _) hfetched)⟩
  · obtain ⟨-, -, hp⟩ := id hs
    exact ⟨_, step_store hs hacc hpc hp hw, rfl, Memory.get_set_same _ s.acc hwf⟩

end Sys2Proof.Machine
end

section
/-! The decoder and the encoder are inverse to each other (30_encoding.md R61, R63, R65). -/

namespace Sys2Proof.Machine

/-- HALT's opcode digit, with an operand that HALT does not admit (41_halt_reserved.md R100). -/
theorem decodeDigits_haltIllegalOperand {aa : Int} (haa : 1 ≤ aa) :
    decodeDigits 0 aa = .haltIllegalOperand aa :=
  if_neg (show aa ≠ 0 by omega)

/-- The I/O opcode digit, with an operand that selects neither port (45_io.md R140). -/
theorem decodeDigits_ioIllegalSelector3To99 {aa : Int} (haa : 3 ≤ aa) :
    decodeDigits 9 aa = .ioIllegalSelector3To99 aa := by
  have hne : aa ≠ 0 ∧ aa ≠ 1 ∧ aa ≠ 2 := by omega
  simp [decodeDigits, hne]

/-- A well-formed instruction is decoded from its digits: the operand that its row admits keeps it apart
from the other rows of its opcode digit. -/
theorem decode_encode {i : Instr} (hwf : i.wf = true) : decode (encode i) = i := by
  cases i with
  | halt | ioIllegalSelector0 | input | output => rfl
  | add aa | subtract aa | store aa | reserved4 aa | load aa | branch aa | branchIfZero aa
  | branchIfPositive aa => exact decode_wordOf (by decide) (isOperand_iff.1 hwf)
  | haltIllegalOperand aa =>
    obtain ⟨hlo, hhi⟩ := between_iff.1 hwf
    exact (decode_wordOf (by decide) ⟨by omega, hhi⟩).trans (decodeDigits_haltIllegalOperand hlo)
  | ioIllegalSelector3To99 aa =>
    obtain ⟨hlo, hhi⟩ := between_iff.1 hwf
    exact (decode_wordOf (by decide) ⟨by omega, hhi⟩).trans
      (decodeDigits_ioIllegalSelector3To99 hlo)
  | notAWord w =>
    obtain ⟨-, hneg⟩ := between_iff.1 hwf
    exact decode_notAWord (show w < 0 ∨ 999 < w by omega)

/-- Settles O8: this is `decode_encode`. -/
theorem decodeEncodeRoundTrip : Obligations.DecodeEncodeRoundTrip := fun _ => decode_encode

theorem wordOf_digits (w : Int) : wordOf (opcodeDigit w) (operandDigits w) = w :=
  Int.mul_ediv_add_emod w 100

/-- Settles O7: the two digits are the quotient and the remainder by 100. -/
theorem decoderSplitsDecimalDigits : Obligations.DecoderSplitsDecimalDigits := by
  refine ⟨fun w hlo hhi => ?_, fun o aa ho ho' haa haa' => ?_⟩
  · obtain ⟨hopcode, hopcode'⟩ := opcodeDigit_range ⟨hlo, hhi⟩
    obtain ⟨hoperand, hoperand'⟩ := operandDigits_range w
    exact ⟨hopcode, hopcode', hoperand, hoperand', wordOf_digits w⟩
  · obtain ⟨hlo, hhi⟩ := isWord_iff.1 (isWord_wordOf ⟨ho, ho'⟩ ⟨haa, haa'⟩)
    exact ⟨hlo, hhi, opcodeDigit_wordOf ⟨haa, haa'⟩, operandDigits_wordOf ⟨haa, haa'⟩⟩

/-- The encoder puts together the digits that the instruction's cycle latches. -/
theorem encode_eq_wordOf_digitsOf (i : Instr) : encode i = wordOf (digitsOf i).1 (digitsOf i).2 := by
  cases i with
  | notAWord w => exact (wordOf_digits w).symm
  | _ => rfl

/-- An instruction has the digits of the value it was decoded from, so it encodes to that value. -/
theorem encode_decode (w : Int) : encode (decode w) = w := by
  rw [encode_eq_wordOf_digitsOf, digitsOf_decode, wordOf_digits]

theorem decode_word {w : Int} (hw : 0 ≤ w ∧ w ≤ 999) :
    decode w = decodeDigits (opcodeDigit w) (operandDigits w) := if_pos (isWord_iff.2 hw)

/-- The opcode map gives each row only the operands that the row admits. -/
theorem wf_decodeDigits (o : Int) {aa : Int} (haa : 0 ≤ aa ∧ aa ≤ 99) :
    (decodeDigits o aa).wf = true := by
  fun_cases decodeDigits o aa <;> simp only [Instr.wf, isOperand_iff, between_iff] <;> omega

theorem wf_decode {w : Int} (hw : InRange w) : (decode w).wf = true := by
  obtain ⟨hlo, hhi⟩ := hw
  by_cases hneg : w < 0
  · rw [decode_notAWord (.inl hneg)]
    exact between_iff.2 ⟨hlo, by omega⟩
  · rw [decode_word ⟨by omega, hhi⟩]
    exact wf_decodeDigits _ (operandDigits_range w)

/-- Each row of the opcode table covers the words of its instructions: the laws of `RowCovers` together. -/
theorem rowCovers (i : Instr) : Laws.RowCovers.Statement i := by
  cases i with
  | halt => exact Laws.RowCovers.halt
  | haltIllegalOperand aa => exact Laws.RowCovers.haltIllegalOperand aa
  | add aa => exact Laws.RowCovers.add aa
  | subtract aa => exact Laws.RowCovers.subtract aa
  | store aa => exact Laws.RowCovers.store aa
  | reserved4 aa => exact Laws.RowCovers.reserved4 aa
  | load aa => exact Laws.RowCovers.load aa
  | branch aa => exact Laws.RowCovers.branch aa
  | branchIfZero aa => exact Laws.RowCovers.branchIfZero aa
  | branchIfPositive aa => exact Laws.RowCovers.branchIfPositive aa
  | ioIllegalSelector0 => exact Laws.RowCovers.ioIllegalSelector0
  | input => exact Laws.RowCovers.input
  | output => exact Laws.RowCovers.output
  | ioIllegalSelector3To99 aa => exact Laws.RowCovers.ioIllegalSelector3To99 aa
  | notAWord w => exact Laws.RowCovers.notAWord w

/-- Settles O9: what a mailbox value decodes to is well-formed, so its row covers its encoding, which is
the value. -/
theorem encodeDecodeRoundTrip : Obligations.EncodeDecodeRoundTrip := by
  refine ⟨encode_decode, fun w hw => ⟨wf_decode hw, ?_⟩⟩
  have hrow := rowCovers (decode w) (wf_decode hw)
  rwa [encode_decode] at hrow

/-- Settles O11: each is one run of the decoder on a literal word. -/
theorem sampleWordsDecode : Obligations.SampleWordsDecode := by
  unfold Obligations.SampleWordsDecode
  decide

end Sys2Proof.Machine
end

section
/-! What a cycle does with a fetched value that is no legal instruction (30_encoding.md R62, R65). -/

namespace Sys2Proof.Machine

/-- HALT (41_halt_reserved.md R100): `PC` may be 100 after it, since a halted core has no overrun. -/
theorem exec_halt (s : State) :
    exec .halt s = .next { decodedAt 0 0 s with status := .halted } := by
  have hcycle : cycle 0 0 haltHandler s =
      overrunCheck s.pc { decodedAt 0 0 s with status := .halted } :=
    cycle_ok ((haltHandler_eq _).trans (if_pos rfl))
  exact congrArg Host.Outcome.next (hcycle.trans (overrunCheck_self fun h => nomatch h))

theorem exec_notAWord (w : Int) (s : State) :
    exec (.notAWord w) s = .next (faultedWith .syntaxFault s.pc s) := rfl

/-- Settles O15: the cycle is that of `notAWord`. -/
theorem nonWordRaisesSyntaxFault : Obligations.NonWordRaisesSyntaxFault := by
  refine ⟨fun s hs hw => ?_, exec_notAWord⟩
  rw [hs.step_eq, decode_notAWord hw, exec_notAWord]

/-- The class of the values that are no word has one row. -/
theorem exec_of_class_notAWord {i : Instr} (hc : i.wordClass = .notAWord) (s : State) :
    exec i s = .next (faultedWith .syntaxFault s.pc s) := by
  cases i with
  | notAWord w => exact exec_notAWord w s
  | _ => exact nomatch hc

/-- The reserved class has one row (41_halt_reserved.md R101). -/
theorem exec_of_class_reserved {i : Instr} (hc : i.wordClass = .reserved) (s : State) :
    exec i s = .next ((dispatched i s).raise .unimplementedOpcode s.pc) := by
  cases i with
  | reserved4 aa => exact congrArg Host.Outcome.next (cycle_error (reserved4Handler_fault _))
  | _ => exact nomatch hc

/-- The three rows of the illegal operands: HALT's and the two of opcode 9, whose handlers check the
operand first. -/
theorem exec_of_class_illegalOperand {i : Instr} (hc : i.wordClass = .illegalOperand)
    (hwf : i.wf = true) (s : State) :
    exec i s = .next ((dispatched i s).raise .illegalOperand s.pc) := by
  cases i with
  | haltIllegalOperand aa =>
    have haa := between_iff.1 hwf
    exact congrArg Host.Outcome.next
      (cycle_error ((haltHandler_eq _).trans (if_neg (show aa ≠ 0 by omega))))
  | ioIllegalSelector0 => exact congrArg Host.Outcome.next (cycle_error (ioHandler_eq _))
  | ioIllegalSelector3To99 aa =>
    have haa := between_iff.1 hwf
    exact congrArg Host.Outcome.next (cycle_error ((ioHandler_eq _).trans
      ((if_neg (show aa ≠ 1 by omega)).trans (if_neg (show aa ≠ 2 by omega)))))
  | _ => exact nomatch hc

end Sys2Proof.Machine
end

section
/-! The classification of the mailbox values, with its counts (30_encoding.md R65). -/

namespace Sys2Proof.Machine

/-! ### The rows of the table -/

/-- The words of one opcode digit. -/
theorem decode_of_opcodeDigit {w o : Int} (ho : 0 ≤ o ∧ o ≤ 9) (hlo : 100 * o ≤ w)
    (hhi : w ≤ 100 * o + 99) : decode w = decodeDigits o (w - 100 * o) := by
  have hw : wordOf o (w - 100 * o) = w := by rw [wordOf]; omega
  rw [← decode_wordOf ho ⟨by omega, by omega⟩, hw]

/-- The words `001 .. 099`. -/
theorem decode_haltIllegalOperand {w : Int} (hlo : 1 ≤ w) (hhi : w ≤ 99) :
    decode w = .haltIllegalOperand w := by
  have hdigits := decode_of_opcodeDigit (w := w) (o := 0) (by decide) (by omega) (by omega)
  rw [hdigits, Int.mul_zero, Int.sub_zero, decodeDigits_haltIllegalOperand hlo]

/-- The words `903 .. 999`. -/
theorem decode_ioIllegalSelector3To99 {w : Int} (hlo : 903 ≤ w) (hhi : w ≤ 999) :
    decode w = .ioIllegalSelector3To99 (w - 900) :=
  (decode_of_opcodeDigit (o := 9) (by decide) (by omega) hhi).trans
    (decodeDigits_ioIllegalSelector3To99 (show 3 ≤ w - 900 by omega))

/-- The words `400 .. 499`. -/
theorem decode_reserved4 {w : Int} (hlo : 400 ≤ w) (hhi : w ≤ 499) :
    decode w = .reserved4 (w - 400) :=
  decode_of_opcodeDigit (o := 4) (by decide) hlo hhi

/-! ### The counts -/

/-- Opcodes 1 to 8 but for the reserved one are legal with every operand. -/
theorem wordClass_decode_legal {w : Int} (hw : 100 ≤ w ∧ w ≤ 899) (h4 : ¬ (400 ≤ w ∧ w ≤ 499)) :
    (decode w).wordClass = .legal := by
  have ho : opcodeDigit w = 1 ∨ opcodeDigit w = 2 ∨ opcodeDigit w = 3 ∨ opcodeDigit w = 5 ∨
      opcodeDigit w = 6 ∨ opcodeDigit w = 7 ∨ opcodeDigit w = 8 := by
    unfold opcodeDigit; omega
  rw [decode_word (by omega)]
  rcases ho with h | h | h | h | h | h | h
  all_goals rw [h]; rfl

/-- How many of the words below `n` have the class `c`. -/
def classCount (c : WordClass) (n : Nat) : Nat :=
  (List.range n).countP fun w : Nat => (decode w).wordClass = c

/-- A run of `n` words of one class, from the word `lo` on, adds `n` to the count of that class. -/
theorem classCount_run (c d : WordClass) (lo n : Nat)
    (h : ∀ w : Int, lo ≤ w → w < lo + n → (decode w).wordClass = d) :
    classCount c (lo + n) = classCount c lo + if d = c then n else 0 := by
  have hrun : (List.range n).countP (fun k : Nat => (decode (lo + k : Nat)).wordClass = c) =
      (List.range n).countP fun _ => d = c := by
    refine List.countP_congr fun k hk => ?_
    have hk := List.mem_range.1 hk
    rw [h (lo + k : Nat) (by omega) (by omega)]
  rw [classCount, List.range_add, List.countP_append, List.countP_map]
  refine congrArg (classCount c lo + ·) (hrun.trans ?_)
  split_ifs with hd <;> simp [hd]

/-- The words run by run, as the classification table lists them. -/
theorem classCount_words (c : WordClass) :
    classCount c 1000 = (if .legal = c then 1 else 0) + (if .illegalOperand = c then 99 else 0) +
      (if .legal = c then 300 else 0) + (if .reserved = c then 100 else 0) +
      (if .legal = c then 400 else 0) + (if .illegalOperand = c then 1 else 0) +
      (if .legal = c then 2 else 0) + (if .illegalOperand = c then 97 else 0) := by
  have h0 := classCount_run c .legal 0 1 fun w hlo hhi => by
    obtain rfl : w = 0 := by omega
    rfl
  have h1 := classCount_run c .illegalOperand 1 99 fun w hlo hhi => by
    rw [decode_haltIllegalOperand (by omega) (by omega), Instr.wordClass]
  have h100 := classCount_run c .legal 100 300 fun w hlo hhi =>
    wordClass_decode_legal (by omega) (by omega)
  have h400 := classCount_run c .reserved 400 100 fun w hlo hhi => by
    rw [decode_reserved4 (by omega) (by omega), Instr.wordClass]
  have h500 := classCount_run c .legal 500 400 fun w hlo hhi =>
    wordClass_decode_legal (by omega) (by omega)
  have h900 := classCount_run c .illegalOperand 900 1 fun w hlo hhi => by
    obtain rfl : w = 900 := by omega
    rfl
  have h901 := classCount_run c .legal 901 2 fun w hlo hhi => by
    obtain rfl | rfl : w = 901 ∨ w = 902 := by omega
    all_goals rfl
  have h903 := classCount_run c .illegalOperand 903 97 fun w hlo hhi => by
    rw [decode_ioIllegalSelector3To99 (by omega) (by omega), Instr.wordClass]
  have hnone : classCount c 0 = 0 := rfl
  rw [h903, h901, h900, h500, h400, h100, h1, h0, hnone, Nat.zero_add]

/-- No negative value is a word. -/
theorem count_negative_notAWord :
    ((List.range 999).countP fun w : Nat => (decode (-1 - (w : Int))).wordClass = .notAWord) =
      999 := by
  refine (List.countP_eq_length.2 fun w _ => decide_eq_true ?_).trans List.length_range
  rw [decode_notAWord (.inl (by omega)), Instr.wordClass]

/-- Settles O10: the rows by opcode digit, the effects by the class, the counts by the runs of words of
one class. -/
theorem everyMailboxValueIsClassified : Obligations.EveryMailboxValueIsClassified := by
  refine ⟨fun w hw => ?_, fun s hs hw => ?_, classCount_words .legal,
    classCount_words .illegalOperand, classCount_words .reserved, count_negative_notAWord⟩
  · obtain ⟨-, hmax⟩ := hw
    exact ⟨fun h => decode_notAWord (.inl h), fun h => h ▸ rfl, decode_haltIllegalOperand,
      decode_of_opcodeDigit (o := 1) (by decide), decode_of_opcodeDigit (o := 2) (by decide),
      decode_of_opcodeDigit (o := 3) (by decide), decode_reserved4,
      decode_of_opcodeDigit (o := 5) (by decide), decode_of_opcodeDigit (o := 6) (by decide),
      decode_of_opcodeDigit (o := 7) (by decide), decode_of_opcodeDigit (o := 8) (by decide),
      fun h => h ▸ rfl, fun h => h ▸ rfl, fun h => h ▸ rfl,
      fun h => decode_ioIllegalSelector3To99 h hmax⟩
  · rw [hs.step_eq]
    exact ⟨fun h0 => ⟨_, (congrArg (fun v => exec (decode v) s) h0).trans (exec_halt s), rfl⟩,
      fun hc => exec_of_class_notAWord hc s,
      fun hc => ⟨_, exec_of_class_illegalOperand hc (wf_decode hw) s, rfl, rfl, rfl⟩,
      fun hc => ⟨_, exec_of_class_reserved hc s, rfl, rfl, rfl⟩⟩

end Sys2Proof.Machine
end

section
/-! How a cycle starts: the fetch, and the digits that step 2 latches (40_cycle.md R81 to R83). -/

namespace Sys2Proof.Machine

/-- Settles O12: the fetch finds the mailbox at `PC`. -/
theorem stepRunsTheFetchedInstruction : Obligations.StepRunsTheFetchedInstruction :=
  fun _ hs => hs.step_eq

/-- Settles O13, by the state of the controller and by whether `PC` is an address. -/
theorem cyclesRunExactlyInRunning : Obligations.CyclesRunExactlyInRunning := by
  refine ⟨fun s hterm => hterm.elim step_halted step_faulted, fun s hrun hwait => ⟨?_, ?_⟩⟩
  · exact fun hlo hhi => step_fetch hrun hwait ⟨hlo, hhi⟩
  · exact fun hout => step_fetchFault hrun hwait (by omega)

/-- Settles O14: `memRead` answers a value exactly at an address, and the invariant keeps `PC` one. -/
theorem fetchFaultReportsThePcAndIsUnreachable :
    Obligations.FetchFaultReportsThePcAndIsUnreachable := by
  refine ⟨fun s w hrun hwait hread => ?_, fun s hrun hwait hout => ?_, fun s h hrun hwait => ?_⟩
  · obtain ⟨haddr, rfl⟩ := memRead_ok.1 hread
    exact step_fetch hrun hwait haddr
  · exact step_fetchFault hrun hwait (by omega)
  · exact ⟨h.pcRange.1, h.pcAtStart hrun hwait⟩

@[simp] theorem dispatched_ir (i : Instr) (s : State) : (dispatched i s).ir = (digitsOf i).1 := rfl

@[simp] theorem dispatched_ar (i : Instr) (s : State) : (dispatched i s).ar = (digitsOf i).2 := rfl

/-- Whatever follows step 2, it leaves the digits that step 2 latches. -/
theorem Effect.latches {s t : State} {i : Instr} (he : Effect s i t)
    (hi : ∀ w, i ≠ .notAWord w) : t.ir = (digitsOf i).1 ∧ t.ar = (digitsOf i).2 := by
  cases he with
  | notAWord w => exact absurd rfl (hi w)
  | raises | halts | waits => exact ⟨rfl, rfl⟩
  | adds | subtracts | stores | loads | jumps | fallsThrough | accepts | outputs => simp

/-- The opcode map has a row for every word. -/
theorem decode_ne_notAWord {w : Int} (hw : 0 ≤ w ∧ w ≤ 999) (v : Int) : decode w ≠ .notAWord v := by
  rw [decode_word hw]
  fun_cases decodeDigits (opcodeDigit w) (operandDigits w) <;> nofun

/-- Settles O16: a word's cycle latches its digits, and a value that is no word faults before. -/
theorem everyCycleLatchesTheDecodedDigits : Obligations.EveryCycleLatchesTheDecodedDigits := by
  intro s hs
  rw [hs.step_eq]
  refine ⟨fun hlo hhi => ?_, fun hout => ?_⟩
  · obtain ⟨t, ht⟩ := exec_next (decode s.fetchedWord) s
    have hlatch := (exec_effect ht).latches (decode_ne_notAWord ⟨hlo, hhi⟩)
    rw [digitsOf_decode] at hlatch
    exact ⟨t, ht, hlatch⟩
  · rw [decode_notAWord hout, exec_notAWord]
    exact ⟨_, rfl, rfl, rfl, rfl, rfl, rfl⟩

end Sys2Proof.Machine
end

section
/-! How a cycle ends: `PC` and the state of the controller (40_cycle.md R80, R91). -/

namespace Sys2Proof.Machine

/-- The `PC` an instruction leaves in a cycle that raises no fault (40_cycle.md R91). -/
def nextPc (i : Instr) (s : State) : Int :=
  match i with
  | .branch aa => aa
  | .branchIfZero aa => if s.acc = 0 then aa else s.pc + 1
  | .branchIfPositive aa => if 0 ≤ s.acc then aa else s.pc + 1
  | _ => s.pc + 1

/-- Without a fault `PC` is where the jumps of the instruction put it. -/
theorem Effect.pc_eq {s t : State} {i : Instr} (he : Effect s i t) (ht : t.status ≠ .faulted) :
    t.pc = nextPc i s := by
  cases he with
  | notAWord | raises => exact absurd rfl ht
  | halts _ hi => rcases hi with rfl | rfl <;> rfl
  | adds | subtracts | stores | loads => exact overrunCheck_pc _ _
  | waits _ hi => rcases hi with rfl | rfl <;> rfl
  | accepts _ hi | outputs _ hi => rcases hi with rfl | rfl <;> exact overrunCheck_pc _ _
  | jumps _ aa hi =>
    refine (overrunCheck_pc _ _).trans ?_
    rcases hi with ⟨rfl, -⟩ | ⟨rfl, hacc⟩ | ⟨rfl, hacc⟩
    · rfl
    · exact (if_pos hacc).symm
    · exact (if_pos hacc).symm
  | fallsThrough _ aa hi =>
    refine (overrunCheck_pc _ _).trans ?_
    rcases hi with ⟨rfl, hacc⟩ | ⟨rfl, hacc⟩
    · exact (if_neg hacc).symm
    · exact (if_neg (Int.not_le.2 hacc)).symm

/-- Step 5 lets a core run on at an address only. -/
theorem pc_le_of_overrunCheck_running {a : Int} {s : State}
    (hrun : (overrunCheck a s).status = .running) (hwait : (overrunCheck a s).inputWait = false) :
    (overrunCheck a s).pc ≤ 99 := by
  rcases overrunCheck_cases a s with ⟨he, hp⟩ | ⟨he, -⟩ <;> rw [he] at hrun hwait ⊢
  · exact hp hrun hwait
  · exact nomatch hrun

/-- An instruction after which the core runs on leaves `PC` at an address. -/
theorem Effect.pc_le {s t : State} {i : Instr} (he : Effect s i t) (hrun : t.status = .running)
    (hwait : t.inputWait = false) : t.pc ≤ 99 := by
  cases he with
  | notAWord | raises | halts => exact nomatch hrun
  | waits => exact nomatch hwait
  | adds | subtracts | stores | loads | jumps | fallsThrough | accepts | outputs =>
    exact pc_le_of_overrunCheck_running hrun hwait

/-- Step 5 halts no core. -/
theorem overrunCheck_ne_halted {a : Int} {s : State} (hs : s.status = .running) :
    (overrunCheck a s).status ≠ .halted := by
  rcases overrunCheck_cases a s with ⟨he, -⟩ | ⟨he, -⟩ <;> simp [he, hs]

/-- Only HALT halts the core; `haltIllegalOperand 0`, which no word decodes to, is HALT too. -/
theorem Effect.halted {s t : State} {i : Instr} (he : Effect s i t) (hs : s.status = .running)
    (ht : t.status = .halted) : i = .halt ∨ i = .haltIllegalOperand 0 := by
  cases he with
  | halts _ hi => exact hi
  | notAWord | raises => exact nomatch ht
  | waits => exact absurd (hs.symm.trans ht) nofun
  | adds | subtracts | stores | loads | jumps | fallsThrough | accepts | outputs =>
    exact absurd ht (overrunCheck_ne_halted hs)

/-- Settles O17, one fact about every effect for each of its clauses. -/
theorem programCounterSummary : Obligations.ProgramCounterSummary := by
  intro i s t hs hwf ht hfault
  have he := exec_effect ht
  refine ⟨he.pc_eq hfault, ⟨?_, fun hhalt => ?_⟩, he.pc_le⟩
  · rintro rfl
    rw [← Host.Outcome.next.inj ((exec_halt s).symm.trans ht)]
  · rcases he.halted hs.1 hhalt with rfl | rfl
    · rfl
    · simp [Instr.wf] at hwf

/-! ### The state machine -/

@[simp] theorem inputLoop_status (vs : List Int) (s : State) :
    (inputLoop vs s).status = s.status := by
  induction vs generalizing s with
  | nil => rfl
  | cons v vs ih =>
    rw [inputLoop]
    split_ifs
    · rfl
    · exact ih _

/-- A waiting INPUT halts no core. -/
theorem resumeInput_ne_halted {s : State} (hs : s.status = .running) :
    (resumeInput s).status ≠ .halted :=
  overrunCheck_ne_halted ((inputLoop_status _ _).trans hs)

/-- At its start, a cycle halts the core exactly when it fetches 0: both forms of HALT encode to it. -/
theorem exec_decode_halted_iff {w : Int} {s t : State} (hs : s.status = .running)
    (ht : exec (decode w) s = .next t) : t.status = .halted ↔ w = 0 := by
  refine ⟨fun hhalt => ?_, ?_⟩
  · rw [← encode_decode w]
    rcases (exec_effect ht).halted hs hhalt with hi | hi <;> rw [hi] <;> rfl
  · rintro rfl
    rw [← Host.Outcome.next.inj ((exec_halt s).symm.trans ht)]

/-- A step from RUNNING ends in HALTED exactly when a cycle starts that fetches the word 0. -/
theorem step_halted_iff {s t : State} (h : s.Inv) (hs : s.status = .running)
    (ht : step s = .next t) : t.status = .halted ↔ s.inputWait = false ∧ s.fetchedWord = 0 := by
  cases hw : s.inputWait with
  | true =>
    have hres := Host.Outcome.next.inj ((step_waiting hs hw).symm.trans ht)
    simpa using hres ▸ resumeInput_ne_halted hs
  | false =>
    have hstart : s.AtCycleStart := ⟨hs, hw, h.pcRange.1, h.pcAtStart hs hw⟩
    simpa using exec_decode_halted_iff hs (hstart.step_eq.symm.trans ht)

/-- Boot leaves RUNNING, or FAULTED in `MalformedProgram` (70_reset_and_hazards.md R181, R182). -/
theorem boot_reset_status (tokens : List Int) : (boot tokens State.reset).status = .running ∨
    (boot tokens State.reset).status = .faulted ∧
      (boot tokens State.reset).fkind = some .malformedProgram := by
  cases h : bootLoop 0 tokens [] with
  | ok m => rw [boot_ok h]; exact .inl rfl
  | error k => rw [boot_error h]; exact .inr ⟨rfl, rfl⟩

/-- Settles O19: the invariant, which the step keeps, ties FAULTED to a recorded kind. -/
theorem stateMachineTransitions : Obligations.StateMachineTransitions := by
  refine ⟨rfl, rfl, fun _ => rfl, boot_reset_status, fun s t h ht => ⟨fun hne => ?_, fun hs => ?_⟩⟩
  · cases hs : s.status with
    | running => exact absurd hs hne
    | halted => exact Host.Outcome.next.inj (ht.symm.trans (step_halted hs))
    | faulted => exact Host.Outcome.next.inj (ht.symm.trans (step_faulted hs))
  · obtain ⟨u, hu, hinv⟩ := stepKeepsTheInvariant s h
    obtain rfl := Host.Outcome.next.inj (ht.symm.trans hu)
    exact ⟨step_halted_iff h hs ht, (not_iff_comm.1 hinv.fkindTied.symm).symm⟩

end Sys2Proof.Machine
end

section
/-! Step 5 after the instruction at address 99 (40_cycle.md R86). -/

namespace Sys2Proof.Machine

/-! ### Every instruction but one is the cycle around a handler -/

/-- The handler of step 4. A value that is no word does not come to step 4, and `exec_eq_cycle` says
nothing of it. -/
def handlerOf : Instr → Handler
  | .halt | .haltIllegalOperand _ => haltHandler
  | .add _ => addHandler
  | .subtract _ => subtractHandler
  | .store _ => storeHandler
  | .reserved4 _ => reserved4Handler Config.op4Policy
  | .load _ => loadHandler
  | .branch _ => branchHandler
  | .branchIfZero _ => branchIfZeroHandler
  | .branchIfPositive _ => branchIfPositiveHandler
  | .ioIllegalSelector0 | .input | .output | .ioIllegalSelector3To99 _ => ioHandler
  | .notAWord _ => fun _ => .error .syntaxFault

/-- The dispatch (40_cycle.md R85): an instruction is the cycle that latches its digits, around the
handler of its opcode digit. -/
theorem exec_eq_cycle {i : Instr} (hi : ∀ w, i ≠ .notAWord w) (s : State) :
    exec i s = .next (cycle (digitsOf i).1 (digitsOf i).2 (handlerOf i) s) := by
  cases i with
  | notAWord w => exact absurd rfl (hi w)
  | _ => rfl

/-! ### What an instruction that completes in sequence leaves -/

/-- The state an instruction that completes in sequence hands to step 5; `exec_of_completes` ties it to
the model. -/
def completed (i : Instr) (s : State) : State :=
  match i with
  | .add aa => { dispatched i s with acc := s.acc + s.mailbox aa.toNat }
  | .subtract aa => { dispatched i s with acc := s.acc - s.mailbox aa.toNat }
  | .store aa => { dispatched i s with mem := Memory.set s.mem aa.toNat s.acc }
  | .load aa => { dispatched i s with acc := s.mailbox aa.toNat }
  | .input => inputHandler (dispatched i s)
  | .output => outputHandler (dispatched i s)
  | _ => dispatched i s

/-- The handler of an instruction that completes in sequence raises nothing: the defensive checks of
STORE and LOAD pass on values in range. -/
theorem handlerOf_completes {i : Instr} {s : State} (hacc : InRange s.acc)
    (hmem : ∀ a : Nat, InRange (s.mailbox a)) (hwf : i.wf = true) (hc : CompletesInSequence i s) :
    handlerOf i (dispatched i s) = .ok (completed i s) := by
  cases i with
  | add aa | subtract aa =>
    exact (aluHandler_eq _ _).trans ((if_pos (isOperand_iff.1 hwf)).trans (if_pos hc))
  | store aa =>
    obtain ⟨hlo, hhi⟩ := isOperand_iff.1 hwf
    exact (storeHandler_eq _).trans
      ((if_neg (Int.not_lt.2 hlo)).trans ((if_pos hhi).trans (if_pos hacc)))
  | load aa =>
    obtain ⟨hlo, hhi⟩ := isOperand_iff.1 hwf
    exact (loadHandler_eq _).trans
      ((if_neg (Int.not_lt.2 hlo)).trans ((if_pos hhi).trans (if_pos (hmem _))))
  | branchIfZero aa => exact (branchIfZeroHandler_eq _).trans (congrArg Except.ok (if_neg hc))
  | branchIfPositive aa =>
    exact (branchIfPositiveHandler_eq _).trans (congrArg Except.ok (if_neg (Int.not_le.2 hc)))
  | input | output => exact ioHandler_eq _
  | halt | haltIllegalOperand | reserved4 | branch | ioIllegalSelector0 | ioIllegalSelector3To99
  | notAWord => exact hc.elim

/-- An instruction that completes in sequence is its effect and then step 5. -/
theorem exec_of_completes {i : Instr} {s : State} (hacc : InRange s.acc)
    (hmem : ∀ a : Nat, InRange (s.mailbox a)) (hwf : i.wf = true) (hc : CompletesInSequence i s) :
    exec i s = .next (overrunCheck s.pc (completed i s)) := by
  have hword : ∀ w, i ≠ .notAWord w := by
    rintro w rfl
    exact hc
  exact (exec_eq_cycle hword s).trans
    (congrArg Host.Outcome.next (cycle_ok (handlerOf_completes hacc hmem hwf hc)))

theorem inputLoop_withPc (vs : List Int) (s : State) (p : Int) :
    inputLoop vs { s with pc := p } = { inputLoop vs s with pc := p } := by
  induction vs generalizing s with
  | nil => rfl
  | cons v vs ih =>
    simp only [inputLoop]
    split_ifs
    · rfl
    · exact ih (s.emit (.rejected v))

@[simp] theorem inputLoop_pc (vs : List Int) (s : State) : (inputLoop vs s).pc = s.pc := by
  have hpc := congrArg State.pc (inputLoop_withPc vs s s.pc)
  exact hpc

@[simp] theorem completed_pc (i : Instr) (s : State) : (completed i s).pc = s.pc + 1 := by
  cases i with
  | input => exact inputLoop_pc _ _
  | _ => rfl

@[simp] theorem completed_status (i : Instr) (s : State) : (completed i s).status = s.status := by
  cases i with
  | input => exact inputLoop_status _ _
  | _ => rfl

/-- An INPUT that completes has an integer to take, so no instruction that completes waits. -/
theorem completed_inputWait {i : Instr} {s : State} (hw : s.inputWait = false)
    (hc : CompletesInSequence i s) : (completed i s).inputWait = false := by
  cases i with
  | input =>
    obtain ⟨v, hv, hrange⟩ := hc
    rcases firstInRange_cases s.input with ⟨pre, w, post, hin, hpre, hwr⟩ | hno
    · show (inputLoop s.input (dispatched .input s)).inputWait = false
      rw [hin, inputLoop_accepts pre post hpre hwr]
    · exact absurd hrange (hno v hv)
  | _ => exact hw

/-- An instruction that completes in sequence has the same effects at every address. -/
theorem completed_withPc (i : Instr) (s : State) (p : Int) :
    completed i { s with pc := p } = { completed i s with pc := p + 1 } := by
  cases i with
  | input => exact inputLoop_withPc s.input (dispatched .input s) (p + 1)
  | _ => rfl

/-! ### Only an instruction that completes in sequence overruns -/

/-- Step 5 records the overrun past address 99 only. -/
theorem pc_of_overrunCheck_fkind {a : Int} {s : State}
    (hk : (overrunCheck a s).fkind = some .programOverrun) (hs : s.fkind = none) : 100 ≤ s.pc := by
  rcases overrunCheck_cases a s with ⟨he, -⟩ | ⟨-, -, -, hp⟩
  · rw [he, hs] at hk
    exact nomatch hk
  · exact hp

/-- The overrun is no fault of a handler. -/
theorem HandlerFault.ne_programOverrun {s : State} {k : FaultKind} {i : Instr}
    (h : HandlerFault s k i) : k ≠ .programOverrun := by
  rintro rfl
  cases i <;> simp [HandlerFault] at h

/-- A jump goes to an address, and so does not overrun. -/
theorem jump_target_le {i : Instr} {aa : Int} {s : State} (hwf : i.wf = true)
    (hi : i = .branch aa ∧ 0 ≤ aa ∨ i = .branchIfZero aa ∧ s.acc = 0 ∨
      i = .branchIfPositive aa ∧ 0 ≤ s.acc) : aa ≤ 99 := by
  rcases hi with ⟨rfl, -⟩ | ⟨rfl, -⟩ | ⟨rfl, -⟩ <;> exact (isOperand_iff.1 hwf).2

/-- An effect that ends in the overrun is that of an instruction at 99 that completes in sequence. -/
theorem Effect.completes_of_overrun {s t : State} {i : Instr} (he : Effect s i t)
    (hs : s.fkind = none) (hpc : s.pc ≤ 99) (hwf : i.wf = true)
    (hk : t.fkind = some .programOverrun) : s.pc = 99 ∧ CompletesInSequence i s := by
  have hnext : 100 ≤ s.pc + 1 → s.pc = 99 := by omega
  cases he with
  | notAWord => exact nomatch hk
  | raises _ k h => exact absurd (Option.some.inj hk) h.ne_programOverrun
  | halts | waits => exact absurd (hs.symm.trans hk) nofun
  | adds _ _ hr | subtracts _ _ hr => exact ⟨hnext (pc_of_overrunCheck_fkind hk hs), hr⟩
  | stores | loads => exact ⟨hnext (pc_of_overrunCheck_fkind hk hs), trivial⟩
  | jumps _ aa hi =>
    have hge : 100 ≤ aa := pc_of_overrunCheck_fkind hk hs
    have hle := jump_target_le hwf hi
    omega
  | fallsThrough _ aa hi =>
    refine ⟨hnext (pc_of_overrunCheck_fkind hk hs), ?_⟩
    rcases hi with ⟨rfl, hacc⟩ | ⟨rfl, hacc⟩ <;> exact hacc
  | accepts _ hi pre v post hin _ hv =>
    refine ⟨hnext (pc_of_overrunCheck_fkind hk hs), ?_⟩
    rcases hi with rfl | rfl
    · exact ⟨v, by simp [hin], hv⟩
    · simp [Instr.wf] at hwf
  | outputs _ hi =>
    refine ⟨hnext (pc_of_overrunCheck_fkind hk hs), ?_⟩
    rcases hi with rfl | rfl
    · trivial
    · simp [Instr.wf] at hwf

/-- Settles O18: an instruction that completes in sequence hands to step 5 the same effects at every
address, and it alone reaches step 5 with `PC` past 99. -/
theorem overrunExactlyAfterTheLastMailbox : Obligations.OverrunExactlyAfterTheLastMailbox := by
  intro i s h hs hwf
  obtain ⟨hrun, hwait, hpc⟩ := hs
  have hnone : s.fkind = none := h.fkindTied.2 (by simp [hrun])
  obtain ⟨t, ht⟩ := exec_next i s
  have honly := (exec_effect ht).completes_of_overrun hnone hpc.2 hwf
  have hraise (h99 : s.pc = 99) (hc : CompletesInSequence i s) :
      t = (completed i s).raise .programOverrun 99 := by
    have hexec := exec_of_completes h.accRange h.memRange hwf hc
    rw [overrunCheck_raise (by simpa using hrun) (completed_inputWait hwait hc) (by simp [h99]),
      h99] at hexec
    exact Host.Outcome.next.inj (ht.symm.trans hexec)
  refine ⟨t, ht, ⟨honly, fun ⟨h99, hc⟩ => by rw [hraise h99 hc]; rfl⟩, fun hk => ?_⟩
  obtain ⟨h99, hc⟩ := honly hk
  have hzero : exec i { s with pc := 0 } = .next { completed i s with pc := 1 } := by
    rw [exec_of_completes (s := { s with pc := 0 }) h.accRange h.memRange hwf hc,
      overrunCheck_self (by simp), completed_withPc]
    rfl
  rw [hraise h99 hc]
  exact ⟨rfl, rfl, by simp [h99], _, hzero, by simpa using hrun, rfl, rfl, rfl, rfl⟩

end Sys2Proof.Machine
end

section
/-! The step and the environment's sequences (40_cycle.md R90, 10_state.md R30): every operation of the
cycle commutes with putting events before the trace and integers after the input, as long as INPUT does
not come to ask for those integers. -/

namespace Sys2Proof.Machine

/-- `s` with the events `es` before its trace and the integers `more` after its input. -/
def State.extend (es : List IoEvent) (more : List Int) (s : State) : State :=
  { s with trace := es ++ s.trace, input := s.input ++ more }

/-- Unless it leaves INPUT waiting, the handler does the same to everything but these sequences, and
leaves at their far ends what stood there. -/
def PortBlind (es : List IoEvent) (more : List Int) (f : Handler) : Prop :=
  ∀ s : State, (∀ t, f s = .ok t → t.inputWait = false) →
    f (s.extend es more) = (f s).map (State.extend es more)

section
variable (es : List IoEvent) (more : List Int)

theorem State.extend_emit (e : IoEvent) (s : State) :
    (s.extend es more).emit e = (s.emit e).extend es more := by
  simp [State.extend, State.emit]

theorem overrunCheck_extend (a : Int) (s : State) :
    overrunCheck a (s.extend es more) = (overrunCheck a s).extend es more := by
  rcases overrunCheck_cases a s with ⟨he, hp⟩ | ⟨he, hrun, hw, hp⟩ <;> rw [he]
  · exact overrunCheck_self hp
  · exact overrunCheck_raise hrun hw hp

/-- A loop that ends in an accepted integer does not reach the integers after it. -/
theorem inputLoop_extend (vs : List Int) (s : State) (hw : (inputLoop vs s).inputWait = false) :
    inputLoop (vs ++ more) (s.extend es more) = (inputLoop vs s).extend es more := by
  induction vs generalizing s with
  | nil => exact nomatch hw
  | cons v vs ih =>
    simp only [List.cons_append, inputLoop] at hw ⊢
    split_ifs at hw ⊢
    · simp [State.extend, State.emit]
    · rw [State.extend_emit, ih _ hw]

theorem ioHandler_portBlind : PortBlind es more ioHandler := by
  intro s hw
  have hio := ioHandler_eq s
  rw [ioHandler_eq (s.extend es more)]
  by_cases h1 : s.ar = 1
  · rw [if_pos h1] at hio
    have hloop := inputLoop_extend es more s.input s (hw _ hio)
    rw [hio]
    exact (if_pos h1).trans (congrArg Except.ok hloop)
  · rw [hio, if_neg h1, apply_ite (Except.map (State.extend es more))]
    exact (if_neg h1).trans
      (congrArg (ite _ · _) (congrArg Except.ok (State.extend_emit es more (.output s.acc) s)))

/-- Only the handler of opcode 9 uses the port at all. -/
theorem handlerOf_portBlind (i : Instr) : PortBlind es more (handlerOf i) := by
  cases i with
  | ioIllegalSelector0 | input | output | ioIllegalSelector3To99 =>
    exact ioHandler_portBlind es more
  | reserved4 | notAWord => exact fun _ _ => rfl
  | branchIfZero | branchIfPositive =>
    intro s _
    simp only [handlerOf, branchIfZeroHandler_eq, branchIfPositiveHandler_eq, Except.map,
      apply_ite (State.extend es more)]
    rfl
  | halt | haltIllegalOperand | add | subtract | store | load | branch =>
    intro s _
    simp only [handlerOf, haltHandler_eq, addHandler, subtractHandler, aluHandler_eq,
      storeHandler_eq, loadHandler_eq, branchHandler_eq,
      apply_ite (Except.map (State.extend es more))]
    rfl

variable {es more}

/-- The cycle around a handler does not use the port of its own. -/
theorem PortBlind.cycle {f : Handler} (hf : PortBlind es more f) {opcode aa : Int} {s : State}
    (hw : (cycle opcode aa f s).inputWait = false) :
    cycle opcode aa f (s.extend es more) = (cycle opcode aa f s).extend es more := by
  have hblind := hf ((s.latch opcode aa).advance s.pc)
  rcases cycle_cases opcode aa f s with ⟨t, ht, hc⟩ | ⟨k, hk, hc⟩
  · rw [hc, overrunCheck_inputWait] at hw
    rw [ht] at hblind
    rw [hc, ← overrunCheck_extend]
    exact cycle_ok (hblind fun u hu => Except.ok.inj hu ▸ hw)
  · rw [hk] at hblind
    rw [hc]
    exact cycle_error (hblind nofun)

theorem exec_extend {i : Instr} {s t : State} (ht : exec i s = .next t)
    (hw : t.inputWait = false) : exec i (s.extend es more) = .next (t.extend es more) := by
  by_cases hi : ∃ w, i = .notAWord w
  · obtain ⟨w, rfl⟩ := hi
    exact Host.Outcome.next.inj ht ▸ rfl
  · rw [exec_eq_cycle (not_exists.1 hi)] at ht ⊢
    obtain rfl := Host.Outcome.next.inj ht
    rw [(handlerOf_portBlind es more i).cycle hw]

/-- A waiting INPUT that completes takes no integer past the one it accepts. -/
theorem resumeInput_extend {s : State} (hw : (resumeInput s).inputWait = false) :
    resumeInput (s.extend es more) = (resumeInput s).extend es more := by
  rw [resumeInput, overrunCheck_inputWait] at hw
  exact (congrArg (overrunCheck (s.pc - 1)) (inputLoop_extend es more s.input s hw)).trans
    (overrunCheck_extend es more _ _)

end

/-- Settles O56, by the state of the controller: the fetch does not use the port, and neither a cycle
nor a waiting INPUT reaches its far ends. -/
theorem stepIgnoresTraceAndUnreadInput : Obligations.StepIgnoresTraceAndUnreadInput := by
  intro s t es more ht hw
  show step (s.extend es more) = .next (t.extend es more)
  cases hs : s.status with
  | halted =>
    obtain rfl := Host.Outcome.next.inj ((step_halted hs).symm.trans ht)
    exact step_halted hs
  | faulted =>
    obtain rfl := Host.Outcome.next.inj ((step_faulted hs).symm.trans ht)
    exact step_faulted hs
  | running =>
    cases hwait : s.inputWait with
    | true =>
      obtain rfl := Host.Outcome.next.inj ((step_waiting hs hwait).symm.trans ht)
      exact (step_waiting (s := s.extend es more) hs hwait).trans
        (congrArg Host.Outcome.next (resumeInput_extend hw))
    | false =>
      by_cases hp : 0 ≤ s.pc ∧ s.pc ≤ 99
      · exact (step_fetch (s := s.extend es more) hs hwait hp).trans
          (exec_extend ((step_fetch hs hwait hp).symm.trans ht) hw)
      · obtain rfl := Host.Outcome.next.inj ((step_fetchFault hs hwait hp).symm.trans ht)
        exact step_fetchFault (s := s.extend es more) hs hwait hp

end Sys2Proof.Machine
end

section
/-! The frame of the instructions that write neither `ACC` nor memory and do not use the port
(41_halt_reserved.md R100, R101; 44_branch.md R130 to R132; 45_io.md R140; 30_encoding.md R62). -/

namespace Sys2Proof.Machine

/-- Step 5 keeps the fault status or raises at the address it is given. -/
theorem overrunCheck_faultStatus (a : Int) (s : State) :
    (overrunCheck a s).status = s.status ∧ (overrunCheck a s).fkind = s.fkind ∧
        (overrunCheck a s).faddr = s.faddr ∨
      (overrunCheck a s).status = .faulted ∧ (overrunCheck a s).fkind ≠ none ∧
        (overrunCheck a s).faddr = a := by
  rcases overrunCheck_cases a s with ⟨he, -⟩ | ⟨he, -⟩ <;> rw [he]
  · exact .inl ⟨rfl, rfl, rfl⟩
  · exact .inr ⟨rfl, nofun, rfl⟩

/-- An effect keeps the fault status, or is that of HALT, or is a fault at the old `PC`. -/
theorem Effect.faultStatus {s t : State} {i : Instr} (he : Effect s i t) :
    t.status = s.status ∧ t.fkind = s.fkind ∧ t.faddr = s.faddr ∨
      (i = .halt ∨ i = .haltIllegalOperand 0) ∧ t.status = .halted ∧ t.fkind = s.fkind ∧
        t.faddr = s.faddr ∨
      t.status = .faulted ∧ t.fkind ≠ none ∧ t.faddr = s.pc := by
  cases he with
  | notAWord | raises => exact .inr (.inr ⟨rfl, nofun, rfl⟩)
  | halts _ hi => exact .inr (.inl ⟨hi, rfl, rfl, rfl⟩)
  | waits => exact .inl ⟨rfl, rfl, rfl⟩
  | adds | subtracts | stores | loads | jumps | fallsThrough | accepts | outputs =>
    exact (overrunCheck_faultStatus _ _).imp_right .inr

/-- An effect on the port, the trace or the wait is that of an instruction that selects INPUT or
OUTPUT. -/
theorem Effect.port_eq_or_io {s t : State} {i : Instr} (he : Effect s i t) :
    (t.input = s.input ∧ t.trace = s.trace ∧ t.inputWait = s.inputWait) ∨
      (i = .input ∨ i = .ioIllegalSelector3To99 1) ∨
      (i = .output ∨ i = .ioIllegalSelector3To99 2) := by
  cases he with
  | accepts _ hi | waits _ hi => exact .inr (.inl hi)
  | outputs _ hi => exact .inr (.inr hi)
  | notAWord | raises | halts => exact .inl ⟨rfl, rfl, rfl⟩
  | adds | subtracts | stores | loads | jumps | fallsThrough =>
    exact .inl ⟨overrunCheck_input _ _, overrunCheck_trace _ _, overrunCheck_inputWait _ _⟩

/-- Settles O53: the writers of `ACC`, of memory and of the port are the instructions left out, but
for the operands 1 and 2 of an illegal selector; these, and the operand 0 of an illegal HALT, are not
well-formed. -/
theorem controlInstructionsFrame : Obligations.ControlInstructionsFrame := by
  intro i s t hwf hi hin hout ht
  have he := exec_effect ht
  have hacc : t.acc = s.acc := by
    by_contra hne
    rcases onlyLoadArithmeticInputWriteAcc i s t hwf ht hne with h | ⟨aa, h⟩
    · exact hin h
    · obtain ⟨hadd, hsub, hload, -⟩ := hi aa
      simp [hadd, hsub, hload] at h
  have hmem : t.mem = s.mem := by
    rcases he.mem_eq_or_store with h | ⟨aa, h, -⟩
    · exact h
    · exact absurd h (hi aa).2.2.2
  have hport : t.input = s.input ∧ t.trace = s.trace ∧ t.inputWait = s.inputWait := by
    rcases he.port_eq_or_io with h | (h | rfl) | (h | rfl)
    · exact h
    · exact absurd h hin
    · simp [Instr.wf] at hwf
    · exact absurd h hout
    · simp [Instr.wf] at hwf
  obtain ⟨hinput, htrace, hwait⟩ := hport
  refine ⟨hacc, fun a => congrArg (Memory.get · a) hmem, hinput, htrace, hwait, ?_⟩
  rcases he.faultStatus with h | ⟨hhalt | rfl, h⟩ | h
  · exact .inl h
  · exact .inr (.inl ⟨hhalt, h⟩)
  · simp [Instr.wf] at hwf
  · exact .inr (.inr h)

end Sys2Proof.Machine
end

section
/-! HALT and the reserved opcode 4 (41_halt_reserved.md R100 to R102). -/

namespace Sys2Proof.Machine

/-- HALT checks that its operand is 0 before it halts. -/
theorem exec_haltIllegalOperand {aa : Int} (haa : aa ≠ 0) (s : State) :
    exec (.haltIllegalOperand aa) s =
      .next (faultedWith .illegalOperand s.pc (decodedAt 0 aa s)) :=
  congrArg Host.Outcome.next (cycle_error ((haltHandler_eq _).trans (if_neg haa)))

/-- Settles O28: the decoder and the handler both ask whether the operand is 0. -/
theorem haltFollowsItsRule : Obligations.HaltFollowsItsRule :=
  ⟨decode_wordOf (o := 0) (aa := 0) (by decide) (by decide),
    fun _ => decode_haltIllegalOperand,
    fun s _ => ⟨exec_halt s, fun _ haa => exec_haltIllegalOperand haa s⟩⟩

/-- Settles O29: the reserved class raises before step 5, so there is no overrun at 99. -/
theorem reserved4FollowsItsRule : Obligations.Reserved4FollowsItsRule :=
  ⟨fun _ hlo hhi => decode_wordOf (o := 4) (by decide) ⟨hlo, hhi⟩,
    fun aa s _ => exec_of_class_reserved (i := .reserved4 aa) rfl s⟩

/-- Under the policy `nop` the cycle of opcode 4 is steps 2 and 3, and then step 5. -/
theorem cycle_reserved4_nop (aa : Int) (s : State) :
    cycle 4 aa (reserved4Handler .nop) s = overrunCheck s.pc (decodedAt 4 aa s) := cycle_ok rfl

/-- Settles O30: only step 5 tells the address 99 from the others. -/
theorem reserved4UnderTheNopPolicy : Obligations.Reserved4UnderTheNopPolicy := by
  rintro aa s ⟨hrun, hwait, -⟩
  rw [cycle_reserved4_nop]
  have hnext : (decodedAt 4 aa s).pc = s.pc + 1 := rfl
  refine ⟨fun hpc => overrunCheck_self fun _ _ => by omega, fun hpc => ?_⟩
  have hpast : 100 ≤ (decodedAt 4 aa s).pc := by omega
  rw [overrunCheck_raise (s := decodedAt 4 aa s) hrun hwait hpast, hpc]
  rfl

end Sys2Proof.Machine
end

section
/-! ADD and SUBTRACT (42_arith.md R110 to R113), proved once for the cycle around `aluHandler f`: both
instructions are that cycle, and differ in their opcode digit and in `f` alone. -/

namespace Sys2Proof.Machine

/-! ### Step 5 after an instruction that goes on to the next mailbox -/

/-- Step 5 does nothing after an instruction at 98 or below that goes on to the next mailbox. -/
theorem overrunCheck_of_pc_le {s t : State} (hnext : t.pc = s.pc + 1) (hpc : s.pc ≤ 98) :
    overrunCheck s.pc t = t := overrunCheck_self fun _ _ => by omega

/-- Step 5 raises the overrun after an instruction at 99 that goes on to the next mailbox. -/
theorem State.AtCycleStart.overrunCheck_of_pc_eq {s t : State} (hs : s.AtCycleStart)
    (hrun : t.status = s.status) (hwait : t.inputWait = s.inputWait) (hnext : t.pc = s.pc + 1)
    (hpc : s.pc = 99) : overrunCheck s.pc t = faultedWith .programOverrun 99 t := by
  obtain ⟨hsrun, hswait, -⟩ := hs
  rw [overrunCheck_raise (hrun.trans hsrun) (hwait.trans hswait) (by omega), hpc]
  rfl

/-! ### The cycle around an ALU operation -/

section
variable {f : Int → Int → Int} {aa : Int} {s : State} (o : Int)

/-- An exact result in range goes to `ACC`, and step 5 follows. -/
theorem cycle_alu_inRange (haa : 0 ≤ aa ∧ aa ≤ 99)
    (hr : InRange (f s.acc (s.mailbox aa.toNat))) :
    cycle o aa (aluHandler f) s =
      overrunCheck s.pc { decodedAt o aa s with acc := f s.acc (s.mailbox aa.toNat) } :=
  cycle_ok ((aluHandler_eq f _).trans ((if_pos haa).trans (if_pos hr)))

/-- Below 99, an exact result in range goes to `ACC`, and step 5 does nothing. -/
theorem cycle_alu_of_pc_le (haa : 0 ≤ aa ∧ aa ≤ 99) (hpc : s.pc ≤ 98)
    (hr : InRange (f s.acc (s.mailbox aa.toNat))) :
    cycle o aa (aluHandler f) s =
      { decodedAt o aa s with acc := f s.acc (s.mailbox aa.toNat) } :=
  (cycle_alu_inRange o haa hr).trans (overrunCheck_of_pc_le rfl hpc)

theorem cycle_alu_overflow (haa : 0 ≤ aa ∧ aa ≤ 99)
    (hr : ¬ InRange (f s.acc (s.mailbox aa.toNat))) :
    cycle o aa (aluHandler f) s = faultedWith .overflow s.pc (decodedAt o aa s) :=
  cycle_error ((aluHandler_eq f _).trans ((if_pos haa).trans (if_neg hr)))

theorem cycle_alu_addressFault (haa : ¬ (0 ≤ aa ∧ aa ≤ 99)) :
    cycle o aa (aluHandler f) s = faultedWith .addressFault s.pc (decodedAt o aa s) :=
  cycle_error ((aluHandler_eq f _).trans (if_neg haa))

end

/-- The rule that ADD and SUBTRACT share: an instruction that is the cycle around an ALU operation. -/
theorem exec_alu_rule {i : Instr} {o aa : Int} {f : Int → Int → Int} {s : State}
    (hs : s.AtCycleStart) (hi : exec i s = .next (cycle o aa (aluHandler f) s)) :
    (0 ≤ aa → aa ≤ 99 → InRange (f s.acc (s.mailbox aa.toNat)) → s.pc ≤ 98 →
      exec i s = .next { decodedAt o aa s with acc := f s.acc (s.mailbox aa.toNat) }) ∧
    (0 ≤ aa → aa ≤ 99 → InRange (f s.acc (s.mailbox aa.toNat)) → s.pc = 99 →
      exec i s = .next (faultedWith .programOverrun 99
        { decodedAt o aa s with acc := f s.acc (s.mailbox aa.toNat) })) ∧
    (0 ≤ aa → aa ≤ 99 → ¬ InRange (f s.acc (s.mailbox aa.toNat)) →
      exec i s = .next (faultedWith .overflow s.pc (decodedAt o aa s))) ∧
    (aa < 0 ∨ 99 < aa →
      exec i s = .next (faultedWith .addressFault s.pc (decodedAt o aa s))) := by
  rw [hi]
  refine ⟨fun hlo hhi hr hpc => ?_, fun hlo hhi hr hpc => ?_, fun hlo hhi hr => ?_, fun hout => ?_⟩
  · rw [cycle_alu_of_pc_le o ⟨hlo, hhi⟩ hpc hr]
  · exact congrArg Host.Outcome.next ((cycle_alu_inRange o ⟨hlo, hhi⟩ hr).trans
      (hs.overrunCheck_of_pc_eq rfl rfl rfl hpc))
  · rw [cycle_alu_overflow o ⟨hlo, hhi⟩ hr]
  · rw [cycle_alu_addressFault o (by omega)]

/-- Settles O31: ADD is the cycle of opcode 1 around the sum. -/
theorem addFollowsItsRule : Obligations.AddFollowsItsRule :=
  ⟨fun _ hlo hhi => decode_wordOf (o := 1) (by decide) ⟨hlo, hhi⟩,
    fun aa _ hs => exec_alu_rule (i := .add aa) hs rfl⟩

/-- Settles O32: SUBTRACT is the cycle of opcode 2 around the difference, `ACC` the minuend. -/
theorem subtractFollowsItsRule : Obligations.SubtractFollowsItsRule :=
  ⟨fun _ hlo hhi => decode_wordOf (o := 2) (by decide) ⟨hlo, hhi⟩,
    fun aa _ hs => exec_alu_rule (i := .subtract aa) hs rfl⟩

/-! ### The laws of R112 -/

/-- Below 98, an ALU instruction stays RUNNING exactly when its exact result is in range, and the
inverse operation undoes it: the operand's mailbox is kept, and the exact result of the inverse is the
old `ACC`, which is in range. -/
theorem exec_alu_exact_and_undoes {i j : Instr} {o p aa : Int} {f g : Int → Int → Int} {s : State}
    (hi : ∀ u, exec i u = .next (cycle o aa (aluHandler f) u))
    (hj : ∀ u, exec j u = .next (cycle p aa (aluHandler g) u))
    (hinv : ∀ acc m, g (f acc m) m = acc) (hrun : s.status = .running) (hacc : InRange s.acc)
    (haa : 0 ≤ aa ∧ aa ≤ 99) (hpc : s.pc ≤ 97) :
    ∃ t, exec i s = .next t ∧
      (t.status = .running ↔ InRange (f s.acc (s.mailbox aa.toNat))) ∧
      (t.status = .running → t.acc = f s.acc (s.mailbox aa.toNat) ∧
        ∃ u, exec j t = .next u ∧ u.status = .running ∧ u.acc = s.acc) := by
  by_cases hr : InRange (f s.acc (s.mailbox aa.toNat))
  · have ht := cycle_alu_of_pc_le o haa (by omega) hr
    have hback := hinv s.acc (s.mailbox aa.toNat)
    refine ⟨_, (hi s).trans (congrArg _ ht), iff_of_true hrun hr, fun _ => ⟨rfl, ?_⟩⟩
    have hu := cycle_alu_of_pc_le
      (s := { decodedAt o aa s with acc := f s.acc (s.mailbox aa.toNat) })
      p haa (show s.pc + 1 ≤ 98 by omega) (hback.symm ▸ hacc)
    exact ⟨_, (hj _).trans (congrArg _ hu), hrun, hback⟩
  · exact ⟨_, (hi s).trans (congrArg _ (cycle_alu_overflow o haa hr)), iff_of_false nofun hr, nofun⟩

/-- Settles O33: the sum and the difference are inverse to each other. -/
theorem arithmeticIsExactAndUndoes : Obligations.ArithmeticIsExactAndUndoes := by
  rintro aa s ⟨hrun, -⟩ hacc hlo hhi hpc
  have hadd (u : State) : exec (.add aa) u = .next (cycle 1 aa addHandler u) := rfl
  have hsubtract (u : State) : exec (.subtract aa) u = .next (cycle 2 aa subtractHandler u) := rfl
  exact ⟨exec_alu_exact_and_undoes hadd hsubtract Int.add_sub_cancel hrun hacc ⟨hlo, hhi⟩ hpc,
    exec_alu_exact_and_undoes hsubtract hadd Int.sub_add_cancel hrun hacc ⟨hlo, hhi⟩ hpc⟩

/-! ### An arithmetic instruction that faults -/

/-- A cycle of a word that ends in FAULTED, and not by step 5, is a fault of the handler after steps 2
and 3, which has written nothing (40_cycle.md R87). -/
theorem Effect.eq_raise_of_faulted {s t : State} {i : Instr} (he : Effect s i t)
    (hi : ∀ w, i ≠ .notAWord w) (hs : s.status = .running) (ht : t.status = .faulted)
    (hk : t.fkind ≠ some .programOverrun) :
    ∃ k, HandlerFault s k i ∧ t = (dispatched i s).raise k s.pc := by
  cases he with
  | notAWord w => exact absurd rfl (hi w)
  | raises _ k h => exact ⟨k, h, rfl⟩
  | halts => exact nomatch ht
  | waits => exact absurd (hs.symm.trans ht) nofun
  | adds | subtracts | stores | loads | jumps | fallsThrough | accepts | outputs =>
    rcases overrunCheck_cases s.pc _ with ⟨h, -⟩ | ⟨h, -⟩
    · rw [h] at ht
      exact absurd (hs.symm.trans ht) nofun
    · exact absurd (congrArg State.fkind h) hk

/-- Settles O34: steps 2 and 3 alone stand, and they write `IR`, `AR` and `PC`. -/
theorem faultingArithmeticLeavesAccUnmodified :
    Obligations.FaultingArithmeticLeavesAccUnmodified := by
  intro i aa s t hi hs ht hfault hk
  have hword : ∀ w, i ≠ .notAWord w := by rcases hi with rfl | rfl <;> exact nofun
  obtain ⟨k, -, rfl⟩ := (exec_effect ht).eq_raise_of_faulted hword hs.1 hfault hk
  have hdigits : digitsOf i = (if i = .add aa then 1 else 2, aa) := by
    rcases hi with rfl | rfl <;> simp [digitsOf]
  exact ⟨rfl, rfl, congrArg Prod.fst hdigits, congrArg Prod.snd hdigits, rfl, rfl, rfl⟩

/-! ### The frame of ADD, SUBTRACT and LOAD -/

/-- An effect that leaves `PC` elsewhere than at the next mailbox is that of a branch, or of a value
that is no word. -/
theorem Effect.pc_eq_next_or_control {s t : State} {i : Instr} (he : Effect s i t) :
    t.pc = s.pc + 1 ∨ (∃ w, i = .notAWord w) ∨
      ∃ aa, i = .branch aa ∨ i = .branchIfZero aa ∨ i = .branchIfPositive aa := by
  cases he with
  | notAWord w => exact .inr (.inl ⟨w, rfl⟩)
  | jumps _ aa hi => exact .inr (.inr ⟨aa, hi.imp And.left (.imp And.left And.left)⟩)
  | raises | halts | waits => exact .inl rfl
  | adds | subtracts | stores | loads | fallsThrough | accepts | outputs =>
    exact .inl (overrunCheck_pc _ _)

/-- Settles O51: the writers of memory and of the port, the jumps and HALT are other instructions. -/
theorem accumulatorInstructionsFrame : Obligations.AccumulatorInstructionsFrame := by
  intro i aa s t hi ht
  have he := exec_effect ht
  have hmem : t.mem = s.mem := by
    rcases he.mem_eq_or_store with h | ⟨_, rfl, -⟩
    · exact h
    · simp at hi
  have har : t.ar = aa := by
    rcases hi with rfl | rfl | rfl <;> exact (he.latches nofun).2
  have hpc : t.pc = s.pc + 1 := by
    rcases he.pc_eq_next_or_control with h | ⟨_, rfl⟩ | ⟨_, rfl | rfl | rfl⟩
    · exact h
    all_goals simp at hi
  have hport : t.input = s.input ∧ t.trace = s.trace ∧ t.inputWait = s.inputWait := by
    rcases he.port_eq_or_io with h | (rfl | rfl) | (rfl | rfl)
    · exact h
    all_goals simp at hi
  obtain ⟨hinput, htrace, hwait⟩ := hport
  refine ⟨fun a => congrArg (Memory.get · a) hmem, har, hpc, hinput, htrace, hwait, ?_⟩
  rcases he.faultStatus with h | ⟨rfl | rfl, -⟩ | h
  · exact .inl h
  · simp at hi
  · simp at hi
  · exact .inr h

end Sys2Proof.Machine
end

section
/-! STORE and LOAD (43_load_store.md R120 to R123). -/

namespace Sys2Proof.Machine

/-! ### An instruction whose handler raises -/

/-- The handler raises what `HandlerFault` says, at the state after steps 2 and 3. -/
theorem handlerOf_error {i : Instr} {s : State} {k : FaultKind} (h : HandlerFault s k i) :
    handlerOf i (dispatched i s) = .error k := by
  cases i with
  | haltIllegalOperand aa =>
    obtain ⟨haa, rfl⟩ := h
    exact (haltHandler_eq _).trans (if_neg haa)
  | add aa | subtract aa =>
    refine (aluHandler_eq _ _).trans ?_
    rcases h with ⟨haa, rfl⟩ | ⟨haa, hr, rfl⟩
    · exact if_neg haa
    · exact (if_pos haa).trans (if_neg hr)
  | store aa | load aa =>
    simp only [handlerOf, storeHandler_eq, loadHandler_eq]
    rcases h with ⟨hneg, rfl⟩ | ⟨hhi, rfl⟩ | ⟨⟨hlo, hhi⟩, hr, rfl⟩
    · exact if_pos hneg
    · have hlo : 0 ≤ aa := by omega
      exact (if_neg (Int.not_lt.2 hlo)).trans (if_neg (Int.not_le.2 hhi))
    · exact (if_neg (Int.not_lt.2 hlo)).trans ((if_pos hhi).trans (if_neg hr))
  | reserved4 aa =>
    obtain rfl := h
    exact reserved4Handler_fault (dispatched (.reserved4 aa) s)
  | branch aa =>
    obtain ⟨hneg, rfl⟩ := h
    exact (branchHandler_eq _).trans (if_pos hneg)
  | ioIllegalSelector0 =>
    obtain rfl := h
    exact ioHandler_eq _
  | ioIllegalSelector3To99 aa =>
    obtain ⟨h1, h2, rfl⟩ := h
    exact (ioHandler_eq _).trans ((if_neg h1).trans (if_neg h2))
  | halt | branchIfZero | branchIfPositive | input | output | notAWord => exact h.elim

/-- An instruction whose handler raises is steps 2 and 3 and the fault (40_cycle.md R87). -/
theorem exec_of_handlerFault {i : Instr} {s : State} {k : FaultKind} (h : HandlerFault s k i) :
    exec i s = .next ((dispatched i s).raise k s.pc) := by
  have hword : ∀ w, i ≠ .notAWord w := by
    rintro w rfl
    exact h
  exact (exec_eq_cycle hword s).trans (congrArg Host.Outcome.next (cycle_error (handlerOf_error h)))

/-! ### What STORE and LOAD do -/

/-- LOAD from a mailbox whose value fits (43_load_store.md R121). -/
theorem exec_load {aa : Int} {s : State} (haa : 0 ≤ aa ∧ aa ≤ 99)
    (hr : InRange (s.mailbox aa.toNat)) :
    exec (.load aa) s =
      .next (overrunCheck s.pc { decodedAt 5 aa s with acc := s.mailbox aa.toNat }) := by
  have hhandler := (loadHandler_eq ((s.latch 5 aa).advance s.pc)).trans
    ((if_neg (Int.not_lt.2 haa.1)).trans ((if_pos haa.2).trans (if_pos hr)))
  exact congrArg Host.Outcome.next (cycle_ok hhandler)

/-- Settles O35: only step 5 tells the address 99 from the others, and the mailbox that STORE writes is
read after write. -/
theorem storeFollowsItsRule : Obligations.StoreFollowsItsRule := by
  refine ⟨fun _ hlo hhi => decode_store ⟨hlo, hhi⟩, fun aa s hs => ⟨fun hlo hhi hr hwf => ?_,
    fun hneg => exec_of_handlerFault (i := .store aa) (.inl ⟨hneg, rfl⟩),
    fun hhi => exec_of_handlerFault (i := .store aa) (.inr (.inl ⟨hhi, rfl⟩)),
    fun hlo hhi hr => exec_of_handlerFault (i := .store aa) (.inr (.inr ⟨⟨hlo, hhi⟩, hr, rfl⟩))⟩⟩
  refine ⟨_, exec_store ⟨hlo, hhi⟩ hr, ?_, fun b hb => ?_, fun hpc => ?_, fun hpc => ?_⟩
  · exact (overrunCheck_mailbox _ _ _).trans (Memory.get_set_same _ _ hwf)
  · exact (overrunCheck_mailbox _ _ _).trans (Memory.get_set_other _ hb)
  · rw [overrunCheck_mem]
    exact overrunCheck_of_pc_le rfl hpc
  · rw [overrunCheck_mem]
    exact hs.overrunCheck_of_pc_eq rfl rfl rfl hpc

/-- Settles O36: only step 5 tells the address 99 from the others. -/
theorem loadFollowsItsRule : Obligations.LoadFollowsItsRule := by
  refine ⟨fun _ hlo hhi => decode_wordOf (o := 5) (by decide) ⟨hlo, hhi⟩, fun aa s hs =>
    ⟨fun hlo hhi hr hpc => ?_, fun hlo hhi hr hpc => ?_,
    fun hlo hhi hr => exec_of_handlerFault (i := .load aa) (.inr (.inr ⟨⟨hlo, hhi⟩, hr, rfl⟩)),
    fun hneg => exec_of_handlerFault (i := .load aa) (.inl ⟨hneg, rfl⟩),
    fun hhi => exec_of_handlerFault (i := .load aa) (.inr (.inl ⟨hhi, rfl⟩))⟩⟩
  · exact (exec_load ⟨hlo, hhi⟩ hr).trans
      (congrArg Host.Outcome.next (overrunCheck_of_pc_le rfl hpc))
  · exact (exec_load ⟨hlo, hhi⟩ hr).trans
      (congrArg Host.Outcome.next (hs.overrunCheck_of_pc_eq rfl rfl rfl hpc))

/-! ### STORE, then LOAD -/

theorem mem_of_exec_store {aa : Int} {s t : State} (haa : 0 ≤ aa ∧ aa ≤ 99) (hacc : InRange s.acc)
    (ht : exec (.store aa) s = .next t) : t.mem = Memory.set s.mem aa.toNat s.acc := by
  obtain rfl := Host.Outcome.next.inj ((exec_store haa hacc).symm.trans ht)
  exact overrunCheck_mem _ _

theorem acc_mem_of_exec_load {aa : Int} {s t : State} (haa : 0 ≤ aa ∧ aa ≤ 99)
    (hr : InRange (s.mailbox aa.toNat)) (ht : exec (.load aa) s = .next t) :
    t.acc = s.mailbox aa.toNat ∧ t.mem = s.mem := by
  obtain rfl := Host.Outcome.next.inj ((exec_load haa hr).symm.trans ht)
  exact ⟨overrunCheck_acc _ _, overrunCheck_mem _ _⟩

/-- An instruction list leads to a state through the one its first instruction leads to. -/
theorem execAll_cons_next {i : Instr} {is : List Instr} {s u : State} :
    execAll (i :: is) s = .next u ↔ ∃ t, exec i s = .next t ∧ execAll is t = .next u := by
  obtain ⟨t, ht⟩ := exec_next i s
  simp [execAll, ht]

/-- A well-formed instruction other than STORE to an address keeps the mailbox at that address. -/
theorem mailbox_of_exec_ne_store {i : Instr} {aa : Int} {s t : State} (haa : 0 ≤ aa)
    (hi : i ≠ .store aa) (hwf : i.wf = true) (ht : exec i s = .next t) :
    t.mailbox aa.toNat = s.mailbox aa.toNat := by
  rcases (exec_effect ht).mem_eq_or_store with hmem | ⟨bb, rfl, hmem⟩
  · exact congrArg (Memory.get · aa.toNat) hmem
  · have hbb := isOperand_iff.1 hwf
    have hne : aa ≠ bb := fun h => hi (h ▸ rfl)
    rw [State.mailbox, hmem, Memory.get_set_other _ (by omega)]
    rfl

/-- A list of such instructions keeps that mailbox. -/
theorem mailbox_of_execAll_ne_store {is : List Instr} {aa : Int} (haa : 0 ≤ aa)
    (his : ∀ i ∈ is, i ≠ .store aa ∧ i.wf = true) {t u : State} (hu : execAll is t = .next u) :
    u.mailbox aa.toNat = t.mailbox aa.toNat := by
  induction is generalizing t with
  | nil => exact Host.Outcome.next.inj hu ▸ rfl
  | cons i is ih =>
    obtain ⟨⟨hi, hwf⟩, hrest⟩ := List.forall_mem_cons.1 his
    obtain ⟨m, hm, hu⟩ := execAll_cons_next.1 hu
    exact (ih hrest hu).trans (mailbox_of_exec_ne_store haa hi hwf hm)

/-- Writing a mailbox with what it holds leaves a canonical memory as it is. -/
theorem Memory.set_get_self {m : Memory} {a : Nat} (hm : Memory.wf m = true) (ha : a < 100) :
    Memory.set m a (Memory.get m a) = m := by
  refine Memory.eq_of_get_eq_from (Memory.set_wf _ hm ha) hm fun b => ?_
  by_cases hb : b = a
  · rw [hb, Memory.get_set_same _ _ hm]
  · exact Memory.get_set_other _ hb

/-- Settles O37: nothing between the STORE and the LOAD writes the mailbox; and the STORE after the LOAD
writes a mailbox with what it holds. -/
theorem storeThenLoadRoundTrip : Obligations.StoreThenLoadRoundTrip := by
  refine ⟨fun aa is s t u v hwf hlo hhi hacc ht his hu hv => ?_,
    fun aa s t u hinv _ hlo hhi ht hu => ?_⟩
  · have hstored : t.mailbox aa.toNat = s.acc := by
      rw [State.mailbox, mem_of_exec_store ⟨hlo, hhi⟩ hacc ht, Memory.get_set_same _ _ hwf]
    have hkept : u.mailbox aa.toNat = s.acc :=
      (mailbox_of_execAll_ne_store hlo his hu).trans hstored
    obtain ⟨hloaded, -⟩ := acc_mem_of_exec_load ⟨hlo, hhi⟩ (hkept ▸ hacc) hv
    exact hloaded.trans hkept
  · have hr := hinv.memRange aa.toNat
    obtain ⟨hloaded, hmem⟩ := acc_mem_of_exec_load ⟨hlo, hhi⟩ hr ht
    rw [mem_of_exec_store ⟨hlo, hhi⟩ (hloaded ▸ hr) hu, hloaded, hmem]
    exact Memory.set_get_self hinv.memWf (by omega)

/-! ### The frame of STORE -/

/-- Settles O52: memory changes at the effective address alone, and only where the handler returns; the
only fault after that is the overrun. -/
theorem storeFrame : Obligations.StoreFrame := by
  intro aa s t ht
  cases exec_effect ht with
  | raises _ k h =>
    exact ⟨fun _ _ => rfl, rfl, rfl, rfl, rfl, rfl, rfl, rfl,
      .inr ⟨rfl, nofun, rfl, fun _ _ => rfl⟩⟩
  | halts _ hi | accepts _ hi | waits _ hi | outputs _ hi | jumps _ _ hi | fallsThrough _ _ hi =>
    simp at hi
  | stores _ ha hr =>
    refine ⟨fun b hb => (overrunCheck_mailbox _ _ _).trans (Memory.get_set_other _ hb),
      overrunCheck_acc _ _, overrunCheck_ir _ _, overrunCheck_ar _ _, overrunCheck_pc _ _,
      overrunCheck_input _ _, overrunCheck_trace _ _, overrunCheck_inputWait _ _, ?_⟩
    rcases overrunCheck_cases s.pc _ with ⟨he, -⟩ | ⟨he, -⟩ <;> rw [he]
    · exact .inl ⟨rfl, rfl, rfl⟩
    · exact .inr ⟨rfl, nofun, rfl, fun hk => absurd rfl hk⟩

end Sys2Proof.Machine
end

section
/-! The three branches (44_branch.md R130 to R133). -/

namespace Sys2Proof.Machine

/-- Settles O41: every effect but that of a jump and that of a value that is no word leaves `PC` where
step 3 put it. -/
theorem onlyBranchesJump : Obligations.OnlyBranchesJump := by
  intro i s t ht hpc
  cases exec_effect ht with
  | notAWord w => exact .inr ⟨w, rfl, rfl⟩
  | jumps _ aa hi =>
    exact .inl ⟨aa, hi.imp And.left (.imp And.left And.left), overrunCheck_pc _ _⟩
  | raises | halts | waits => exact absurd rfl hpc
  | adds | subtracts | stores | loads | fallsThrough | accepts | outputs =>
    exact absurd (overrunCheck_pc _ _) hpc

/-- A cycle that jumps to its operand ends there: step 5 does not fire, because the operand is at most 99
(R130). -/
theorem cycle_jumps {o aa : Int} {f : Handler} {s : State} (haa : aa ≤ 99)
    (hf : f (decodedAt o aa s) = .ok (jumpToOperand (decodedAt o aa s))) :
    cycle o aa f s = { decodedAt o aa s with pc := aa } :=
  (cycle_ok hf).trans (overrunCheck_self fun _ _ => haa)

/-- Settles O38: the handler's one check is the sign of the operand. -/
theorem branchFollowsItsRule : Obligations.BranchFollowsItsRule := by
  refine ⟨fun _ hlo hhi => decode_wordOf (o := 6) (by decide) ⟨hlo, hhi⟩, fun aa s _ =>
    ⟨fun hlo hhi => ?_, fun hneg => exec_of_handlerFault (i := .branch aa) ⟨hneg, rfl⟩⟩⟩
  have hhandler := (branchHandler_eq (decodedAt 6 aa s)).trans (if_neg (Int.not_lt.2 hlo))
  exact congrArg Host.Outcome.next (cycle_jumps hhi hhandler)

/-- The rule that the two conditional branches share: an instruction whose cycle jumps to its operand
exactly when a condition holds, and otherwise goes on to the next mailbox. -/
theorem exec_branchIf_rule {i : Instr} {o aa : Int} {f : Handler} {s : State} {c : Prop} [Decidable c]
    (hs : s.AtCycleStart) (hi : exec i s = .next (cycle o aa f s)) (haa : aa ≤ 99)
    (hf : f (decodedAt o aa s) =
      .ok (if c then jumpToOperand (decodedAt o aa s) else decodedAt o aa s)) :
    (c → exec i s = .next { decodedAt o aa s with pc := aa }) ∧
    (¬ c → s.pc ≤ 98 → exec i s = .next (decodedAt o aa s)) ∧
    (¬ c → s.pc = 99 →
      exec i s = .next (faultedWith .programOverrun 99 (decodedAt o aa s))) := by
  have hfalls (hc : ¬ c) : cycle o aa f s = overrunCheck s.pc (decodedAt o aa s) :=
    cycle_ok (hf.trans (congrArg Except.ok (if_neg hc)))
  rw [hi]
  refine ⟨fun hc => ?_, fun hc hpc => ?_, fun hc hpc => ?_⟩
  · rw [cycle_jumps haa (hf.trans (congrArg Except.ok (if_pos hc)))]
  · rw [hfalls hc, overrunCheck_of_pc_le rfl hpc]
  · rw [hfalls hc, hs.overrunCheck_of_pc_eq (t := decodedAt o aa s) rfl rfl rfl hpc]

/-- Settles O39: the condition is `ACC = 0`. -/
theorem branchIfZeroFollowsItsRule : Obligations.BranchIfZeroFollowsItsRule :=
  ⟨fun _ hlo hhi => decode_wordOf (o := 7) (by decide) ⟨hlo, hhi⟩,
    fun aa _ hs _ hhi =>
      exec_branchIf_rule (i := .branchIfZero aa) hs rfl hhi (branchIfZeroHandler_eq _)⟩

/-- Settles O40: the condition is `ACC >= 0`, and its negation is `ACC < 0`. -/
theorem branchIfPositiveFollowsItsRule : Obligations.BranchIfPositiveFollowsItsRule := by
  refine ⟨fun _ hlo hhi => decode_wordOf (o := 8) (by decide) ⟨hlo, hhi⟩, fun aa s hs _ hhi => ?_⟩
  simpa only [Int.not_le] using
    exec_branchIf_rule (i := .branchIfPositive aa) (c := 0 ≤ s.acc) hs rfl hhi
      (branchIfPositiveHandler_eq _)

end Sys2Proof.Machine
end

section
/-! INPUT, its wait, and OUTPUT (45_io.md R140 to R145, 10_state.md R30, R31). -/

namespace Sys2Proof.Machine

/-! ### The loop of INPUT -/

/-- The loop of INPUT writes `ACC`, the port's integers and the wait, and appends events, none of
which is OUTPUT's. -/
theorem inputLoop_writes (vs : List Int) (s : State) : ∃ a is w es, outputs es = [] ∧
    inputLoop vs s =
      { s with acc := a, input := is, inputWait := w, trace := s.trace ++ es } := by
  induction vs generalizing s with
  | nil => exact ⟨s.acc, [], true, [], rfl, by simp [inputLoop]⟩
  | cons v vs ih =>
    rw [inputLoop]
    split_ifs
    · exact ⟨v, vs, false, [.accepted v], rfl, rfl⟩
    · obtain ⟨a, is, w, es, hes, hl⟩ := ih (s.emit (.rejected v))
      exact ⟨a, is, w, .rejected v :: es, hes, hl.trans (by simp [State.emit])⟩

/-- The loop overwrites both the port's integers and the wait: only the list it is given counts. -/
theorem inputLoop_withPort (vs is : List Int) (w : Bool) (s : State) :
    inputLoop vs { s with input := is, inputWait := w } = inputLoop vs s := by
  induction vs generalizing s with
  | nil => rfl
  | cons v vs ih =>
    simp only [inputLoop]
    split_ifs
    · rfl
    · exact ih (s.emit (.rejected v))

theorem inputLoop_supplyInput (ws vs : List Int) (s : State) :
    inputLoop ws (supplyInput vs s) = inputLoop ws s :=
  inputLoop_withPort ws (s.input ++ vs) s.inputWait s

/-- A loop that ends in the wait has taken every integer. -/
theorem inputLoop_input_of_waits {vs : List Int} {s : State}
    (hw : (inputLoop vs s).inputWait = true) : (inputLoop vs s).input = [] := by
  induction vs generalizing s with
  | nil => rfl
  | cons v vs ih =>
    rw [inputLoop] at hw ⊢
    split_ifs at hw ⊢
    · exact nomatch hw
    · exact ih hw

/-- A loop that ends in the wait goes on with the integers that come later as if they had been there
(45_io.md R143). -/
theorem inputLoop_resumes {vs : List Int} {s : State} (hw : (inputLoop vs s).inputWait = true)
    (ws : List Int) : inputLoop ws (inputLoop vs s) = inputLoop (vs ++ ws) s := by
  induction vs generalizing s with
  | nil => exact inputLoop_withPort ws [] true s
  | cons v vs ih =>
    simp only [List.cons_append, inputLoop] at hw ⊢
    split_ifs at hw ⊢
    · exact nomatch hw
    · exact ih hw

/-! ### The cycles of INPUT and OUTPUT -/

/-- Step 5 does not run while INPUT waits (10_state.md R31). -/
theorem overrunCheck_waiting {a : Int} {s : State} (hw : s.inputWait = true) :
    overrunCheck a s = s := overrunCheck_self fun _ h => absurd (hw.symm.trans h) nofun

theorem exec_input (s : State) :
    exec .input s = .next (overrunCheck s.pc (inputLoop s.input (decodedAt 9 1 s))) :=
  congrArg Host.Outcome.next (cycle_ok (ioHandler_eq _))

/-- INPUT with an in-range integer to take (45_io.md R141). -/
theorem exec_input_accepts {s : State} {pre post : List Int} {v : Int} (hw : s.inputWait = false)
    (hin : s.input = pre ++ v :: post) (hpre : ∀ x ∈ pre, ¬ InRange x) (hv : InRange v) :
    exec .input s = .next (overrunCheck s.pc
      { decodedAt 9 1 s with
        acc := v
        input := post
        trace := s.trace ++ pre.map .rejected ++ [.accepted v] }) := by
  rw [exec_input, hin, inputLoop_accepts pre post hpre hv, ← hw]
  rfl

/-- INPUT with no in-range integer to take ends in the wait, before step 5 (10_state.md R31). -/
theorem exec_input_waits {s : State} (hno : ∀ x ∈ s.input, ¬ InRange x) :
    exec .input s = .next
      { decodedAt 9 1 s with
        inputWait := true
        input := []
        trace := s.trace ++ s.input.map .rejected } := by
  rw [exec_input, inputLoop_waits _ hno]
  exact congrArg Host.Outcome.next (overrunCheck_waiting rfl)

theorem exec_output (s : State) :
    exec .output s = .next (overrunCheck s.pc
      { decodedAt 9 2 s with trace := s.trace ++ [.output s.acc] }) :=
  congrArg Host.Outcome.next (cycle_ok (ioHandler_eq _))

/-- An instruction that hands to step 5 a state at the next mailbox, RUNNING and not waiting as
before: only step 5 tells the address 99 from the others. -/
theorem State.AtCycleStart.exec_in_sequence {i : Instr} {s t : State} (hs : s.AtCycleStart)
    (hi : exec i s = .next (overrunCheck s.pc t)) (hrun : t.status = s.status)
    (hwait : t.inputWait = s.inputWait) (hnext : t.pc = s.pc + 1) :
    (s.pc ≤ 98 → exec i s = .next t) ∧
    (s.pc = 99 → exec i s = .next (faultedWith .programOverrun 99 t)) := by
  rw [hi]
  refine ⟨fun hpc => ?_, fun hpc => ?_⟩
  · rw [overrunCheck_of_pc_le hnext hpc]
  · rw [hs.overrunCheck_of_pc_eq hrun hwait hnext hpc]

/-- Settles O42: the handler raises for every selector but 1 and 2. -/
theorem illegalSelectorsFault : Obligations.IllegalSelectorsFault := by
  have hword {aa : Int} (hlo : 0 ≤ aa) (hhi : aa ≤ 99) : decode (900 + aa) = decodeDigits 9 aa :=
    decode_wordOf (o := 9) (by decide) ⟨hlo, hhi⟩
  refine ⟨hword (aa := 0) (by decide) (by decide), hword (aa := 1) (by decide) (by decide),
    hword (aa := 2) (by decide) (by decide), fun aa hlo hhi => ?_,
    fun s _ => ⟨?_, fun aa h1 h2 => ?_⟩⟩
  · exact (hword (by omega) hhi).trans (decodeDigits_ioIllegalSelector3To99 hlo)
  · exact exec_of_handlerFault (i := .ioIllegalSelector0) rfl
  · exact exec_of_handlerFault (i := .ioIllegalSelector3To99 aa) ⟨h1, h2, rfl⟩

/-- Settles O43: the loop takes the first in-range integer, and step 5 follows. -/
theorem inputFollowsItsRule : Obligations.InputFollowsItsRule := by
  refine ⟨decode_wordOf (o := 9) (aa := 1) (by decide) (by decide),
    fun s pre v post hs hin hpre hv => ?_⟩
  obtain ⟨-, hw, -⟩ := id hs
  exact hs.exec_in_sequence (exec_input_accepts hw hin hpre hv) rfl rfl rfl

/-- Settles O46: OUTPUT always completes, and step 5 follows. -/
theorem outputFollowsItsRule : Obligations.OutputFollowsItsRule :=
  ⟨decode_wordOf (o := 9) (aa := 2) (by decide) (by decide), fun s hs =>
    hs.exec_in_sequence (exec_output s) rfl rfl rfl⟩

/-! ### The wait -/

/-- A waiting INPUT that finds no in-range integer goes on waiting. -/
theorem resumeInput_waits {s : State} (hw : s.inputWait = true)
    (hno : ∀ x ∈ s.input, ¬ InRange x) :
    resumeInput s = { s with input := [], trace := s.trace ++ s.input.map .rejected } := by
  rw [resumeInput, inputHandler, inputLoop_waits _ hno, ← hw]
  exact overrunCheck_waiting hw

/-- A waiting INPUT that finds an in-range integer completes, and step 5 of its cycle follows. -/
theorem resumeInput_accepts {s : State} {pre post : List Int} {v : Int}
    (hin : s.input = pre ++ v :: post) (hpre : ∀ x ∈ pre, ¬ InRange x) (hv : InRange v) :
    resumeInput s = overrunCheck (s.pc - 1)
      { s with
        acc := v
        input := post
        inputWait := false
        trace := s.trace ++ pre.map .rejected ++ [.accepted v] } := by
  rw [resumeInput, inputHandler, hin, inputLoop_accepts pre post hpre hv]

/-- An effect that enters the wait is that of an instruction that selects INPUT. -/
theorem Effect.selects_input_of_waits {s t : State} {i : Instr} (he : Effect s i t)
    (hs : s.inputWait = false) (ht : t.inputWait = true) :
    i = .input ∨ i = .ioIllegalSelector3To99 1 := by
  cases he with
  | accepts _ hi | waits _ hi => exact hi
  | notAWord | raises | halts => exact absurd (hs.symm.trans ht) nofun
  | adds | subtracts | stores | loads | jumps | fallsThrough | outputs =>
    rw [overrunCheck_inputWait] at ht
    exact absurd (hs.symm.trans ht) nofun

/-- A well-formed illegal selector selects neither INPUT nor OUTPUT. -/
theorem eq_of_wf_of_selects {i j : Instr} {n : Int} (hwf : i.wf = true) (hn : n < 3)
    (hi : i = j ∨ i = .ioIllegalSelector3To99 n) : i = j := by
  rcases hi with hi | rfl
  · exact hi
  · obtain ⟨hlo, -⟩ := between_iff.1 hwf
    omega

/-- A step of a waiting INPUT that finds no in-range integer (45_io.md R145). -/
theorem step_waiting_waits {s : State} (hrun : s.status = .running) (hw : s.inputWait = true)
    (hno : ∀ x ∈ s.input, ¬ InRange x) :
    step s = .next { s with input := [], trace := s.trace ++ s.input.map .rejected } :=
  (step_waiting hrun hw).trans (congrArg Host.Outcome.next (resumeInput_waits hw hno))

/-- Settles O44, by what the port has: the loop of INPUT accepts or waits, in its own cycle and when
it goes on. -/
theorem inputWaitsUntilAnInRangeValue : Obligations.InputWaitsUntilAnInRangeValue := by
  refine ⟨fun s _ => exec_input_waits, fun s hs => ?_, fun s => step_waiting_waits,
    fun s pre v post hinv hw hin hpre hv => ?_, fun i s t hwf hs ht hw => ?_⟩
  · obtain ⟨hrun, hw, hnone⟩ := hs
    rw [step_waiting_waits hrun hw (by simp [hnone]), hnone, List.map_nil, List.append_nil, ← hnone]
  · obtain ⟨hrun, -⟩ := hinv.waiting hw
    refine ⟨_, (step_waiting hrun hw).trans
      (congrArg Host.Outcome.next (resumeInput_accepts hin hpre hv)),
      overrunCheck_acc _ _, overrunCheck_inputWait _ _, overrunCheck_input _ _,
      overrunCheck_trace _ _, overrunCheck_pc _ _, overrunCheck_mem _ _,
      fun hpc => ?_, fun hpc => ?_⟩
    · rw [overrunCheck_self]
      exacts [hrun, fun _ _ => hpc]
    · have hat : s.pc - 1 = 99 := by omega
      rw [overrunCheck_raise]
      exacts [⟨rfl, hat⟩, hrun, rfl, Int.le_of_eq hpc.symm]
  · exact eq_of_wf_of_selects hwf (by decide) ((exec_effect ht).selects_input_of_waits hs hw)

/-- A waiting INPUT whose port has nothing left goes on with what is supplied next. -/
theorem resumeInput_supplyInput {s : State} (hin : s.input = []) (vs : List Int) :
    resumeInput (supplyInput vs s) = overrunCheck (s.pc - 1) (inputLoop vs s) := by
  rw [resumeInput, inputHandler, inputLoop_supplyInput, supplyInput_input, hin]
  rfl

/-- Settles O45: the cycle that waits leaves what the loop leaves, and the loop that goes on ends as
the loop that is given all the integers at once. -/
theorem lateInputIsLikeEarlyInput : Obligations.LateInputIsLikeEarlyInput := by
  rintro s t vs ⟨hrun, -⟩ ht hw
  obtain rfl := Host.Outcome.next.inj ((exec_input s).symm.trans ht)
  rw [overrunCheck_inputWait] at hw
  rw [overrunCheck_waiting hw]
  have hpc : (inputLoop s.input (decodedAt 9 1 s)).pc - 1 = s.pc :=
    (congrArg (· - 1) (inputLoop_pc _ _)).trans (Int.add_sub_cancel _ _)
  have hearly : exec .input (supplyInput vs s) = .next (overrunCheck s.pc
      (inputLoop (s.input ++ vs) (decodedAt 9 1 s))) :=
    (exec_input _).trans (congrArg (fun u => Host.Outcome.next (overrunCheck s.pc u))
      (inputLoop_supplyInput (s.input ++ vs) vs (decodedAt 9 1 s)))
  have hlate := step_waiting (s := supplyInput vs (inputLoop s.input (decodedAt 9 1 s)))
    ((inputLoop_status _ _).trans hrun) hw
  rw [hlate, hearly, resumeInput_supplyInput (inputLoop_input_of_waits hw), inputLoop_resumes hw,
    hpc]

/-! ### The events -/

theorem outputs_append (es fs : List IoEvent) : outputs (es ++ fs) = outputs es ++ outputs fs := by
  induction es with
  | nil => rfl
  | cons e es ih => cases e <;> simp [outputs, ih]

/-- Settles O47: OUTPUT appends its event, the loop of INPUT its own, and no other well-formed
instruction uses the port. -/
theorem traceGrowsOnlyByIo : Obligations.TraceGrowsOnlyByIo := by
  intro i s t hwf ht
  by_cases hout : i = .output
  · subst hout
    obtain rfl := Host.Outcome.next.inj ((exec_output s).symm.trans ht)
    exact ⟨[.output s.acc], overrunCheck_trace _ _, fun _ h => absurd rfl h, by
      simp [outputs_append, outputs]⟩
  rw [if_neg hout, List.append_nil]
  rcases (exec_effect ht).port_eq_or_io with ⟨-, htrace, -⟩ | hin | hsel
  · exact ⟨[], by simp [htrace], fun _ _ => rfl, by rw [htrace]⟩
  · obtain rfl := eq_of_wf_of_selects hwf (by decide) hin
    obtain rfl := Host.Outcome.next.inj ((exec_input s).symm.trans ht)
    obtain ⟨a, is, w, es, hes, hl⟩ := inputLoop_writes s.input (decodedAt 9 1 s)
    rw [overrunCheck_trace, hl]
    exact ⟨es, rfl, fun h => absurd rfl h, by simp [outputs_append, hes, decodedAt]⟩
  · exact absurd (eq_of_wf_of_selects hwf (by decide) hsel) hout

/-! ### The frame -/

/-- Step 5 of an instruction that goes on to the next mailbox keeps the fault status, or raises the
overrun at 99. -/
theorem overrunCheck_overrun_or_faultStatus {s t : State} (hnext : t.pc = s.pc + 1) :
    (overrunCheck s.pc t).status = t.status ∧ (overrunCheck s.pc t).fkind = t.fkind ∧
        (overrunCheck s.pc t).faddr = t.faddr ∨
      99 ≤ s.pc ∧ (overrunCheck s.pc t).status = .faulted ∧
        (overrunCheck s.pc t).fkind = some .programOverrun ∧
        (overrunCheck s.pc t).faddr = s.pc := by
  rcases overrunCheck_cases s.pc t with ⟨he, -⟩ | ⟨he, -, -, hpc⟩ <;> rw [he]
  · exact .inl ⟨rfl, rfl, rfl⟩
  · exact .inr ⟨by omega, rfl, rfl, rfl⟩

/-- INPUT and OUTPUT hand to step 5 a state in which, after steps 2 and 3, they have written at most
`ACC`, the port's sequences and the wait, OUTPUT the trace alone. -/
theorem exec_io_writes {i : Instr} {s t : State} (hi : i = .input ∨ i = .output)
    (ht : exec i s = .next t) : ∃ a is w es,
    t = overrunCheck s.pc
      { dispatched i s with acc := a, input := is, inputWait := w, trace := es } ∧
    (i = .output → a = s.acc ∧ is = s.input ∧ w = s.inputWait) := by
  rcases hi with rfl | rfl
  · obtain ⟨a, is, w, es, -, hl⟩ := inputLoop_writes s.input (decodedAt 9 1 s)
    rw [exec_input, hl] at ht
    exact ⟨a, is, w, _, (Host.Outcome.next.inj ht).symm, nofun⟩
  · exact ⟨_, _, _, _, (Host.Outcome.next.inj ((exec_output s).symm.trans ht)).symm,
      fun _ => ⟨rfl, rfl, rfl⟩⟩

/-- Settles O54: beside what `exec_io_writes` names, the cycle writes in steps 2, 3 and 5 only. -/
theorem ioInstructionsFrame : Obligations.IoInstructionsFrame := by
  intro i s t hi ht
  obtain ⟨a, is, w, es, rfl, hout⟩ := exec_io_writes hi ht
  have hdigits : digitsOf i = (9, if i = .input then 1 else 2) := by
    rcases hi with rfl | rfl <;> rfl
  refine ⟨fun _ => overrunCheck_mailbox _ _ _,
    (overrunCheck_ir _ _).trans (congrArg Prod.fst hdigits),
    (overrunCheck_ar _ _).trans (congrArg Prod.snd hdigits), overrunCheck_pc _ _,
    fun h => ?_, overrunCheck_overrun_or_faultStatus rfl⟩
  rw [overrunCheck_acc, overrunCheck_input, overrunCheck_inputWait]
  exact hout h

end Sys2Proof.Machine
end

section
/-! Which faults a step can raise (60_exceptions.md R172, 10_state.md R34): the defensive checks fail
under no state that meets the invariant, and the class of the fetched word names the rest. -/

namespace Sys2Proof.Machine

/-! ### The classes as ranges of words -/

theorem wordClass_decode_illegalOperand_iff {w : Int} (hw : InRange w) :
    (decode w).wordClass = .illegalOperand ↔ (1 ≤ w ∧ w ≤ 99) ∨ w = 900 ∨ 903 ≤ w := by
  refine ⟨fun hc => ?_, ?_⟩
  · obtain ⟨hlo, hhi⟩ := (encodeDecodeRoundTrip.2 w hw).2
    cases hi : decode w with
    | haltIllegalOperand aa | ioIllegalSelector0 | ioIllegalSelector3To99 aa =>
      simp only [hi, Instr.rowRange] at hlo hhi
      omega
    | _ => exact nomatch hi ▸ hc
  · rintro (⟨hlo, hhi⟩ | rfl | hlo)
    · rw [decode_haltIllegalOperand hlo hhi, Instr.wordClass]
    · rfl
    · rw [decode_ioIllegalSelector3To99 hlo hw.2, Instr.wordClass]

theorem wordClass_decode_reserved_iff {w : Int} (hw : InRange w) :
    (decode w).wordClass = .reserved ↔ 400 ≤ w ∧ w ≤ 499 := by
  refine ⟨fun hc => ?_, fun ⟨hlo, hhi⟩ => by rw [decode_reserved4 hlo hhi, Instr.wordClass]⟩
  have hrow := (encodeDecodeRoundTrip.2 w hw).2
  cases hi : decode w with
  | reserved4 aa => rwa [hi] at hrow
  | _ => exact nomatch hi ▸ hc

theorem wordClass_decode_notAWord_iff {w : Int} (hw : InRange w) :
    (decode w).wordClass = .notAWord ↔ w < 0 := by
  refine ⟨fun hc => ?_, fun hneg => by rw [decode_notAWord (.inl hneg), Instr.wordClass]⟩
  have hrow := (encodeDecodeRoundTrip.2 w hw).2.2
  cases hi : decode w with
  | notAWord v =>
    rw [hi] at hrow
    exact Int.lt_of_le_sub_one hrow
  | _ => exact nomatch hi ▸ hc

/-! ### The fault kinds and the instructions that raise them -/

/-- The instructions whose cycle can raise the fault kind, under the invariant. An overrun follows
whatever instruction stands at 99, and no cycle raises the three defensive kinds; `Effect.raisedBy` ties
this table to the model. -/
def FaultKind.RaisedBy (k : FaultKind) (i : Instr) : Prop :=
  match k with
  | .addressFault | .valueFault | .malformedProgram => False
  | .overflow => ∃ aa, i = .add aa ∨ i = .subtract aa
  | .illegalOperand => i.wordClass = .illegalOperand
  | .syntaxFault => i.wordClass = .notAWord
  | .programOverrun => True
  | .unimplementedOpcode => i.wordClass = .reserved

/-- A handler with an operand of its row, and with values in range, fails no defensive check. -/
theorem HandlerFault.raisedBy {s : State} {k : FaultKind} {i : Instr} (h : HandlerFault s k i)
    (hacc : InRange s.acc) (hmem : ∀ a : Nat, InRange (s.mailbox a)) (hwf : i.wf = true) :
    k.RaisedBy i := by
  cases i with
  | haltIllegalOperand aa =>
    obtain ⟨-, rfl⟩ := h
    rfl
  | ioIllegalSelector3To99 aa =>
    obtain ⟨-, -, rfl⟩ := h
    rfl
  | ioIllegalSelector0 | reserved4 =>
    obtain rfl := h
    rfl
  | add aa | subtract aa =>
    rcases h with ⟨hout, -⟩ | ⟨-, -, rfl⟩
    · exact absurd (isOperand_iff.1 hwf) hout
    · exact ⟨aa, by simp⟩
  | store aa | load aa =>
    obtain ⟨hlo, hhi⟩ := isOperand_iff.1 hwf
    obtain ⟨hacclo, hacchi⟩ := hacc
    obtain ⟨hmemlo, hmemhi⟩ := hmem aa.toNat
    rcases h with ⟨hneg, -⟩ | ⟨hbig, -⟩ | ⟨-, hout, -⟩ <;> omega
  | branch aa => exact absurd (isOperand_iff.1 hwf).1 (Int.not_le.2 h.1)
  | halt | branchIfZero | branchIfPositive | input | output | notAWord => exact h.elim

/-- Step 5 raises the overrun alone. -/
theorem eq_programOverrun_of_overrunCheck {a : Int} {s : State} {k : FaultKind}
    (hk : (overrunCheck a s).fkind = some k) (hs : s.fkind = none) : k = .programOverrun := by
  rcases overrunCheck_cases a s with ⟨he, -⟩ | ⟨he, -⟩ <;> rw [he] at hk
  · exact nomatch hs.symm.trans hk
  · exact (Option.some.inj hk).symm

theorem Effect.raisedBy {s t : State} {i : Instr} {k : FaultKind} (he : Effect s i t)
    (hs : s.fkind = none) (hacc : InRange s.acc) (hmem : ∀ a : Nat, InRange (s.mailbox a))
    (hwf : i.wf = true) (hk : t.fkind = some k) : k.RaisedBy i := by
  cases he with
  | notAWord w =>
    obtain rfl := Option.some.inj hk
    rfl
  | raises _ _ h =>
    obtain rfl := Option.some.inj hk
    exact h.raisedBy hacc hmem hwf
  | halts | waits => exact nomatch hs.symm.trans hk
  | adds | subtracts | stores | loads | jumps | fallsThrough | accepts | outputs =>
    obtain rfl := eq_programOverrun_of_overrunCheck hk hs
    trivial

/-- Under the invariant the word at `PC` names the faults that a step can raise. -/
theorem step_raisedBy {s t : State} {k : FaultKind} (h : s.Inv) (hs : s.status = .running)
    (ht : step s = .next t) (hk : t.fkind = some k) : k.RaisedBy (decode s.fetchedWord) := by
  have hnone : s.fkind = none := h.fkindTied.2 (by simp [hs])
  cases hw : s.inputWait with
  | true =>
    obtain rfl := Host.Outcome.next.inj ((step_waiting hs hw).symm.trans ht)
    obtain ⟨_, _, _, _, -, hl⟩ := inputLoop_writes s.input s
    obtain rfl := eq_programOverrun_of_overrunCheck hk (by rw [inputHandler, hl]; exact hnone)
    trivial
  | false =>
    have hstart : s.AtCycleStart := ⟨hs, hw, h.pcRange.1, h.pcAtStart hs hw⟩
    exact (exec_effect (hstart.step_eq.symm.trans ht)).raisedBy hnone h.accRange h.memRange
      (wf_decode (h.memRange _)) hk

/-- The words of ADD and SUBTRACT. -/
theorem word_of_overflow_raisedBy {w : Int} (hw : InRange w)
    (hk : FaultKind.overflow.RaisedBy (decode w)) : 100 ≤ w ∧ w ≤ 299 := by
  obtain ⟨hlo, hhi⟩ := (encodeDecodeRoundTrip.2 w hw).2
  obtain ⟨aa, hi | hi⟩ := hk
  all_goals
    simp only [hi, Instr.rowRange] at hlo hhi
    omega

/-- Settles O22: `step_raisedBy` says which word a recorded kind needs, and the words of the three
classes that are not legal raise the kind of their class in every state. -/
theorem defensiveFaultsAreUnreachable : Obligations.DefensiveFaultsAreUnreachable := by
  intro s t h hs ht
  have hword : InRange s.fetchedWord := h.memRange _
  have hraised {k : FaultKind} (hk : t.fkind = some k) := step_raisedBy h hs ht hk
  refine ⟨hraised, hraised, hraised, fun hk => word_of_overflow_raisedBy hword (hraised hk),
    fun hw => ?_⟩
  have hexec := ht.symm.trans
    (State.AtCycleStart.step_eq ⟨hs, hw, h.pcRange.1, h.pcAtStart hs hw⟩)
  rw [← wordClass_decode_illegalOperand_iff hword, ← wordClass_decode_notAWord_iff hword,
    ← wordClass_decode_reserved_iff hword]
  refine ⟨⟨hraised, fun hc => ?_⟩, ⟨hraised, fun hc => ?_⟩, ⟨hraised, fun hc => ?_⟩⟩
  · rw [Host.Outcome.next.inj (hexec.trans (exec_of_class_illegalOperand hc (wf_decode hword) s))]
    rfl
  · rw [Host.Outcome.next.inj (hexec.trans (exec_of_class_notAWord hc s))]
    rfl
  · rw [Host.Outcome.next.inj (hexec.trans (exec_of_class_reserved hc s))]
    rfl

end Sys2Proof.Machine
end

section
/-! What a fault leaves behind, and that nothing follows it (60_exceptions.md R162, R163). -/

namespace Sys2Proof.Machine

/-! ### Fault entry -/

/-- A Boot that faults has met a token that is no word, and has left the registers alone
(70_reset_and_hazards.md R182). -/
theorem boot_faulted {tokens : List Int} (hf : (boot tokens State.reset).status = .faulted) :
    ∃ (k : Nat) (u : Int), boot tokens State.reset =
        faultedWith .malformedProgram k { State.reset with mem := failedBootMemory tokens } ∧
      k < 100 ∧ tokens[k]? = some u ∧ ¬ ValidToken u ∧
      ∀ (j : Nat) (v : Int), j < k → tokens[j]? = some v → ValidToken v := by
  cases h : bootLoop 0 tokens [] with
  | ok m =>
    rw [boot_ok h] at hf
    exact nomatch hf
  | error j =>
    obtain ⟨i, u, rfl, hlt, hu, hbad, hgood⟩ := bootLoop_error tokens h
    rw [Nat.zero_add] at h hlt
    exact ⟨i, u, boot_error h, hlt, hu, hbad, hgood⟩

/-- A word's cycle, after steps 2 and 3. -/
theorem dispatched_decode (w : Int) (s : State) :
    dispatched (decode w) s = decodedAt (w / 100) (w % 100) s := by
  rw [dispatched, digitsOf_decode]
  rfl

/-- A cycle of a word that faults without an overrun leaves steps 2 and 3 and the fault status. -/
theorem exec_decode_faulted {w : Int} {s t : State} (h : s.Inv) (hs : s.status = .running)
    (hw : 0 ≤ w ∧ w ≤ 999) (ht : exec (decode w) s = .next t) (hf : t.status = .faulted)
    (hk : t.fkind ≠ some .programOverrun) :
    ∃ k, k ≠ .syntaxFault ∧ k ≠ .programOverrun ∧
      t = faultedWith k s.pc (decodedAt (w / 100) (w % 100) s) := by
  obtain ⟨k, hfault, rfl⟩ :=
    (exec_effect ht).eq_raise_of_faulted (decode_ne_notAWord hw) hs hf hk
  have hin : InRange w := ⟨by omega, hw.2⟩
  have hraised := hfault.raisedBy h.accRange h.memRange (wf_decode hin)
  refine ⟨k, ?_, hfault.ne_programOverrun, by rw [dispatched_decode]; rfl⟩
  rintro rfl
  exact absurd ((wordClass_decode_notAWord_iff hin).1 hraised) (Int.not_lt.2 hw.1)

/-- A waiting INPUT faults in step 5 only, at the address before `PC` (10_state.md R31). -/
theorem resumeInput_faulted {s : State} (hs : s.status = .running)
    (hf : (resumeInput s).status = .faulted) :
    100 ≤ s.pc ∧ ∃ u, resumeInput s = faultedWith .programOverrun (s.pc - 1) u ∧
      u.pc = s.pc ∧ u.ir = s.ir ∧ u.ar = s.ar := by
  obtain ⟨_, _, _, _, -, hl⟩ := inputLoop_writes s.input s
  rw [resumeInput, inputHandler, hl] at hf ⊢
  rcases overrunCheck_cases (s.pc - 1) _ with ⟨he, -⟩ | ⟨he, -, -, hpc⟩
  · rw [he] at hf
    exact nomatch hs.symm.trans hf
  · exact ⟨hpc, _, he, rfl, rfl, rfl⟩

/-- Settles O21, by the stage that raised the fault: Boot, the fetch, the decoder, the handler or
step 5, and step 5 of an INPUT that completes late. -/
theorem faultEntryLeavesTheTabledState : Obligations.FaultEntryLeavesTheTabledState := by
  refine ⟨fun tokens hf => ?_, fetchFaultReportsThePcAndIsUnreachable.2.1,
    fun s t h hs ht hf => ?_, fun s t h hw ht hf => ?_⟩
  · obtain ⟨k, u, hboot, hfirst⟩ := boot_faulted hf
    rw [hboot]
    exact ⟨rfl, rfl, rfl, rfl, rfl, k, u, rfl, hfirst⟩
  · rw [hs.step_eq] at ht
    by_cases hw : 0 ≤ s.fetchedWord ∧ s.fetchedWord ≤ 999
    · by_cases hk : t.fkind = some .programOverrun
      · obtain ⟨u, hu, hiff, hover⟩ := overrunExactlyAfterTheLastMailbox _ s h hs
          (wf_decode (h.memRange _))
        obtain rfl := Host.Outcome.next.inj (ht.symm.trans hu)
        obtain ⟨-, haddr, hpc, heffects⟩ := hover hk
        obtain ⟨h99, -⟩ := hiff.1 hk
        have hlatch := (exec_effect ht).latches (decode_ne_notAWord hw)
        rw [digitsOf_decode] at hlatch
        exact ⟨_, hk, haddr.trans h99.symm, nofun,
          fun _ => ⟨h99, hpc, hlatch.1, hlatch.2, heffects⟩, fun _ hne => absurd rfl hne⟩
      · obtain ⟨k, hsyntax, hoverrun, rfl⟩ := exec_decode_faulted h hs.1 hw ht hf hk
        exact ⟨k, rfl, rfl, fun hk => absurd hk hsyntax, fun hk => absurd hk hoverrun,
          fun _ _ => rfl⟩
    · rw [decode_notAWord (by omega), exec_notAWord] at ht
      obtain rfl := Host.Outcome.next.inj ht
      exact ⟨_, rfl, rfl, fun _ => rfl, nofun, fun hne => absurd rfl hne⟩
  · obtain ⟨hrun, hir, har, -⟩ := h.waiting hw
    obtain rfl := Host.Outcome.next.inj ((step_waiting hrun hw).symm.trans ht)
    obtain ⟨hpc, u, he, hupc, huir, huar⟩ := resumeInput_faulted hrun hf
    have hat : s.pc = 100 := Int.le_antisymm h.pcRange.2 hpc
    rw [he]
    exact ⟨rfl, congrArg (· - 1) hat, hupc.trans hat, huir.trans hir, huar.trans har⟩

/-! ### After a fault -/

/-- Where a step answers the same state, every number of steps does. -/
theorem core_run_of_step_self {s : State} (h : step s = .next s) (n : Nat) :
    core.run n s = .next s := by
  induction n with
  | zero => exact core_run_zero s
  | succ n ih => exact (core_run_next n h).trans ih

/-- Settles O20: a step changes neither terminal state, so a run does not. -/
theorem terminalStatesAreFinal : Obligations.TerminalStatesAreFinal :=
  fun n _ hterm => ⟨core_run_of_step_self (hterm.elim step_halted step_faulted) n, rfl⟩

end Sys2Proof.Machine
end

section
/-! The fault kinds themselves: a run that reaches each (60_exceptions.md R172), their codes and their
classes (R150). -/

namespace Sys2Proof.Machine

/-- Settles O23: a program for each kind. -/
theorem reachableFaultKindsAreReached : Obligations.ReachableFaultKindsAreReached := by
  intro k haddress hvalue
  cases k with
  | addressFault => exact absurd rfl haddress
  | valueFault => exact absurd rfl hvalue
  | overflow =>
    -- LOAD 0 of the word 500 itself, then ADD of it
    exact ⟨[500, 100], [], 2, _, rfl, rfl, rfl⟩
  | illegalOperand => exact ⟨[1], [], 1, _, rfl, rfl, rfl⟩
  | syntaxFault =>
    -- SUBTRACT and STORE make mailbox 2, the next to be fetched, negative
    exact ⟨[202, 302, 1], [], 3, _, rfl, rfl, rfl⟩
  | malformedProgram => exact ⟨[1000], [], 0, _, rfl, rfl, rfl⟩
  | programOverrun =>
    -- LOAD 0 is copied to 99, and BRANCH 99 runs it there
    exact ⟨[500, 399, 699], [], 4, _, rfl, rfl, rfl⟩
  | unimplementedOpcode => exact ⟨[400], [], 1, _, rfl, rfl, rfl⟩

/-- The content of `FKIND` that a code stands for. -/
def kindOfCode : Nat → Option FaultKind
  | 1 => some .addressFault
  | 2 => some .valueFault
  | 3 => some .overflow
  | 4 => some .illegalOperand
  | 5 => some .syntaxFault
  | 6 => some .malformedProgram
  | 7 => some .programOverrun
  | 8 => some .unimplementedOpcode
  | _ => none

theorem kindOfCode_faultCode : Function.LeftInverse kindOfCode faultCode := by
  rintro (_ | k)
  · rfl
  · cases k <;> rfl

theorem faultCode_le (k : Option FaultKind) : faultCode k ≤ 8 := by
  fun_cases faultCode k <;> decide

/-- Settles O24: the codes can be read back, and the class column is a table of eight kinds,
checked pair by pair. -/
theorem faultCodesNameTheKinds : Obligations.FaultCodesNameTheKinds := by
  refine ⟨fun _ _ h => kindOfCode_faultCode.injective h, faultCode_le, rfl, fun j k => ?_⟩
  cases j <;> cases k <;> decide

end Sys2Proof.Machine
end

section
/-! What Boot rejects, and that nothing runs after that (70_reset_and_hazards.md R180, R182). -/

namespace Sys2Proof.Machine

/-- Settles O2: the external reset is the reset state, whose values are those of the table. -/
theorem externalResetDiscardsEveryComponent : Obligations.ExternalResetDiscardsEveryComponent := by
  obtain ⟨hpc, hacc, hir, har, hmem, hstatus, hfkind, hfaddr, htrace, -⟩ :=
    resetValuesAreThoseOfTheTable
  exact fun _ => ⟨hpc, hacc, hir, har, hmem, hstatus, hfkind, hfaddr, htrace⟩

/-- Boot's loop from mailbox `k` on stops at the first token that is no word. -/
theorem bootLoop_first_bad {tokens : List Int} : ∀ {k i : Nat} {t : Int} {m : Memory},
    k + i < 100 → tokens[i]? = some t → ¬ ValidToken t →
    (∀ (j : Nat) (u : Int), j < i → tokens[j]? = some u → ValidToken u) →
    bootLoop k tokens m = .error (k + i) := by
  induction tokens with
  | nil => intro k i t m _ ht; simp at ht
  | cons v vs ih =>
    intro k i t m hi ht hbad hgood
    rw [bootLoop_cons, if_pos (by omega)]
    cases i with
    | zero =>
      obtain rfl : v = t := by simpa using ht
      exact if_neg hbad
    | succ i =>
      have hrest : bootLoop (k + 1) vs (Memory.set m k v) = .error (k + 1 + i) :=
        ih (by omega) (by simpa using ht) hbad
          fun j u hj hu => hgood (j + 1) u (by omega) (by simpa using hu)
      have hv : ValidToken v := hgood 0 v (by omega) rfl
      rw [if_pos (show 0 ≤ v ∧ v ≤ 999 from hv), hrest, Nat.add_right_comm, Nat.add_assoc]

/-- Settles O3: a good list by `boot_loads`; a bad one by where Boot's loop stops, and in FAULTED by
the terminal states being final. -/
theorem bootLoadsTokensOrRejectsTheFirstBadOne :
    Obligations.BootLoadsTokensOrRejectsTheFirstBadOne := by
  refine fun tokens => ⟨boot_loads, fun k t hk ht hbad hgood => ?_⟩
  have hloop : bootLoop 0 tokens [] = .error k := by
    simpa using bootLoop_first_bad (m := []) (k := 0) (by omega) ht hbad hgood
  rw [boot_error hloop]
  exact ⟨rfl, fun n => (terminalStatesAreFinal n _ (.inr rfl)).1⟩

end Sys2Proof.Machine
end

section
/-! A run as the host conducts it (70_reset_and_hazards.md R185, R189): what every move keeps, how many
Boots a run holds, and the run of Boot, input and cycles. -/

namespace Sys2Proof.Machine

/-! ### What every move keeps -/

/-- The core meets the invariant, and stands in its reset state until Boot has ended. -/
structure Run.Sound (r : Run) : Prop where
  fresh : r.phase = .fresh → r.state = State.reset
  inv : r.state.Inv

theorem Run.start_sound : Run.start.Sound := ⟨fun _ => rfl, resetMeetsTheInvariant⟩

theorem Run.Sound.host {m : HostMove} {r t : Run} (hr : r.Sound) (h : r.host m = some t) :
    t.Sound := by
  obtain ⟨-, rfl⟩ | ⟨tokens, -, hp, rfl⟩ | ⟨vs, -, hp, rfl⟩ | ⟨-, rfl⟩ := Run.host_cases h
  · exact Run.start_sound
  · rw [hr.fresh hp]
    exact ⟨nofun, boot_reset_inv tokens⟩
  · exact ⟨fun hf => (nomatch hp.symm.trans hf), hr.inv.supplyInput vs⟩
  · exact hr

theorem Run.Sound.cycle {r t : Run} (hr : r.Sound) (h : r.cycle = some t) : t.Sound := by
  obtain ⟨-, hp, hstep⟩ := Run.cycle_cases h
  obtain ⟨u, hu, hinv⟩ := stepKeepsTheInvariant r.state hr.inv
  rw [← Host.Outcome.next.inj (hstep.symm.trans hu)] at hinv
  exact ⟨fun hf => (nomatch hp.symm.trans hf), hinv⟩

/-- Soundness holds along every run, resets included. -/
theorem Run.Sound.play {ms : List RunMove} : ∀ {r u : Run}, r.Sound → Run.play ms r = some u →
    u.Sound := by
  induction ms with
  | nil => intro r u hr h; exact Option.some.inj h ▸ hr
  | cons m ms ih =>
    intro r u hr h
    obtain ⟨t, ht, htail⟩ := Run.play_cons.1 h
    cases m with
    | host m => exact ih (hr.host ht) htail
    | cycle => exact ih (hr.cycle ht) htail

/-! ### One Boot per run -/

/-- How many Boots stand between reset and this phase. -/
def Phase.boots : Phase → Nat
  | .fresh => 0
  | .booted => 1

theorem Phase.eq_booted_of_boots_pos {p : Phase} (h : 0 < p.boots) : p = .booted := by
  cases p with
  | fresh => exact absurd h (Nat.lt_irrefl 0)
  | booted => rfl

/-- A move other than reset passes from one phase to the next exactly by a Boot. -/
theorem Run.move_boots {m : RunMove} (ms : List RunMove) {r t : Run} (hm : m ≠ .host .reset)
    (h : r.move m = some t) :
    r.phase.boots + bootCount (m :: ms) = t.phase.boots + bootCount ms := by
  cases m with
  | host m =>
    obtain ⟨rfl, -⟩ | ⟨tokens, rfl, hp, rfl⟩ | ⟨vs, rfl, -, rfl⟩ | ⟨rfl | rfl, rfl⟩ :=
      Run.host_cases h
    · exact absurd rfl hm
    · simp [bootCount, hp, Phase.boots, Nat.add_comm]
    · rfl
    · rfl
    · rfl
  | cycle =>
    obtain ⟨hr, ht, -⟩ := Run.cycle_cases h
    rw [hr, ht, bootCount]

/-- Without a reset, the Boots of a run are those between its phases. -/
theorem Run.play_boots {ms : List RunMove} : ∀ {r u : Run}, .host .reset ∉ ms →
    Run.play ms r = some u → r.phase.boots + bootCount ms = u.phase.boots := by
  induction ms with
  | nil => intro r u _ h; rw [Option.some.inj h, bootCount, Nat.add_zero]
  | cons m ms ih =>
    intro r u hreset h
    obtain ⟨hm, hms⟩ := List.ne_and_not_mem_of_not_mem_cons hreset
    obtain ⟨t, ht, htail⟩ := Run.play_cons.1 h
    exact (Run.move_boots ms (Ne.symm hm) ht).trans (ih hms htail)

/-- Without a reset, a run in which a cycle runs ends booted. -/
theorem Run.booted_of_cycle_mem {ms : List RunMove} : ∀ {r u : Run}, .host .reset ∉ ms →
    Run.play ms r = some u → .cycle ∈ ms → u.phase = .booted := by
  induction ms with
  | nil => intro r u _ _ hc; exact absurd hc List.not_mem_nil
  | cons m ms ih =>
    intro r u hreset h hc
    have hms := List.not_mem_of_not_mem_cons hreset
    obtain ⟨t, ht, htail⟩ := Run.play_cons.1 h
    rcases List.mem_cons.1 hc with rfl | hc
    · obtain ⟨-, hbooted, -⟩ := Run.cycle_cases ht
      have hcount := Run.play_boots hms htail
      rw [hbooted, Phase.boots] at hcount
      exact Phase.eq_booted_of_boots_pos (by omega)
    · exact ih hms htail hc

/-- Settles O58: a run from the start is sound, its Boots are counted by its phase, and a cycle among
its moves would leave it booted. -/
theorem eachRunBootsOnce : Obligations.EachRunBootsOnce := by
  intro ms r hreset h
  have hsound := Run.start_sound.play h
  have hcount : 0 + bootCount ms = r.phase.boots := Run.play_boots hreset h
  rw [Nat.zero_add] at hcount
  refine ⟨fun hf => ⟨by rw [hcount, hf]; rfl, hsound.fresh hf, fun hc => ?_⟩,
    fun hb => by rw [hcount, hb]; rfl, hsound.inv⟩
  exact nomatch hf.symm.trans (Run.booted_of_cycle_mem hreset h hc)

/-! ### Before and after Boot -/

/-- Settles O57, by what each move of the host leaves. -/
theorem hostCannotReloadOrWriteAfterBoot : Obligations.HostCannotReloadOrWriteAfterBoot := by
  refine ⟨fun _ _ => rfl, fun m s r hm h => ?_, fun _ => rfl, fun _ => rfl,
    fun _ _ => boot_refused⟩
  obtain ⟨hreset, -⟩ | ⟨_, -, hfresh, -⟩ | ⟨vs, -, -, rfl⟩ | ⟨-, rfl⟩ := Run.host_cases h
  · exact absurd hreset hm
  · exact nomatch hfresh
  · exact ⟨rfl, vs, rfl⟩
  · exact ⟨rfl, [], by rw [List.append_nil]⟩

/-! ### Boot, input and cycles -/

/-- From a state that meets the invariant, `n` cycles of a booted run go where `n` steps of the core
go. -/
theorem Run.play_cycles (n : Nat) : ∀ {s : State}, s.Inv → ∃ t, core.run n s = .next t ∧
    Run.play (List.replicate n .cycle) { phase := .booted, state := s } =
      some { phase := .booted, state := t } := by
  induction n with
  | zero => intro s _; exact ⟨s, core_run_zero s, rfl⟩
  | succ n ih =>
    intro s hs
    obtain ⟨u, hu, hinv⟩ := stepKeepsTheInvariant s hs
    obtain ⟨t, hrun, hplay⟩ := ih hinv
    exact ⟨t, (core_run_next n hu).trans hrun,
      Run.play_cons.2 ⟨_, Run.cycle_booted hu, hplay⟩⟩

/-- Settles O59: Boot and the port's integers lead to the launch, and the cycles follow. -/
theorem resetBootAndCyclesIsARun : Obligations.ResetBootAndCyclesIsARun := by
  intro tokens ins n
  obtain ⟨t, hrun, hplay⟩ := Run.play_cycles n (launchMeetsTheInvariant tokens ins)
  exact ⟨t, hrun, Run.play_cons.2 ⟨_, rfl, Run.play_cons.2 ⟨_, rfl, hplay⟩⟩⟩

end Sys2Proof.Machine
end
